-- ==== Sys2Proof/Word.lean ====
section
/-! DEFINITION. The word types of the block (00_scope.md R8, R10): every state word, register and
operation of the permutation is 32 bits, every byte 8 bits. -/

namespace Sys2Proof

/-- A byte of BUF, of the mask, of a key or of a nonce. -/
abbrev Byte := BitVec 8

/-- `WORD_W` = 32: a state word, a register, a command word (R8). -/
abbrev Word := BitVec 32

/-- `N_WORDS` = 16: the 16-word state, and the working array of the permutation (R8, R22). -/
abbrev Words := Vector Word 16

/-- `MASK_BYTES` = 64: one mask, or one keystream block (R8, R27). -/
abbrev Mask := Vector Byte 64

end Sys2Proof
end

