-- ==== Sys2Proof/Syntax.lean ====
section
/-! DEFINITION. The command set `CC20-CMD` revision 1 (00_scope.md R4, 30_encoding.md R105): one
constructor for each row of spec/opcode_table.json, and the fields of the one format `CMD32`. -/

namespace Sys2Proof

/-- The closed set of two state conventions (R3); `VARIANT` = 0 is DJB, 1 is RFC7539 (R24). -/
inductive Variant where
  | djb
  | rfc7539
  deriving DecidableEq, Repr

/-- The 13 commands of R105. The only immediate of any command is the V bit of INIT (R102); all other
operands are registers (R104). -/
inductive Instr where
  | nop
  | init (v : Variant)
  | setKey
  | setNonce
  | setSeq
  | getSeq
  | incSeq
  | genMask
  | permuteBuf
  | apply
  | applyIp
  | applySeek
  | applySeekIp
  deriving DecidableEq, Repr

/-- The three fields of a `CMD32` command word (R100): OP in bits 7:0, V in bit 8, RSVD in bits 31:9. -/
structure CmdFields where
  op : BitVec 8
  v : BitVec 1
  rsvd : BitVec 23
  deriving DecidableEq, Repr

end Sys2Proof
end

