-- ==== Sys2Proof/WellFormed.lean ====
section
/-! DEFINITION. When the fields of a command word are a command (30_encoding.md R100, R105 to R107). A
term of `Instr` has no ill-formed value: its one operand is a `Variant`. -/

namespace Sys2Proof

/-- The 13 operation codes of R105. -/
def legalOps : List (BitVec 8) :=
  [0x00, 0x01, 0x02, 0x03, 0x04, 0x05, 0x06, 0x07, 0x08, 0x10, 0x11, 0x12, 0x13]

/-- R106: OP is one of the 13 codes. -/
def CmdFields.opLegal (f : CmdFields) : Bool := legalOps.contains f.op

/-- R103: RSVD carries nothing and must be 0. -/
def CmdFields.rsvdClear (f : CmdFields) : Bool := f.rsvd == 0

/-- R100, R102: V must be 0 for every OP other than INIT's. -/
def CmdFields.vLegal (f : CmdFields) : Bool := f.v == 0 || f.op == 0x01

/-- A legal command word: neither illegal (R106) nor reserved (R107). -/
def CmdFields.wellFormed (f : CmdFields) : Bool := f.opLegal && f.rsvdClear && f.vLegal

end Sys2Proof
end

