-- ==== Sys2Proof/Decode.lean ====
section
/-! DEFINITION. The decoder of command words, total on all 2^32 values and rejecting by name, and the
encoder (30_encoding.md R100 to R109). -/

namespace Sys2Proof

/-- Why a command word is not a command. -/
inductive DecodeError where
  /-- OP is not one of the 13 codes: cause 1 (R106, R232). -/
  | illegalOpcode
  /-- a legal OP with RSVD ≠ 0, or with V = 1 and OP ≠ 0x01: cause 2 (R107, R233). -/
  | reservedBits
  deriving DecidableEq, Repr

/-- R24, R102: V = 0 selects DJB, V = 1 RFC7539. -/
def Variant.ofBit (b : Bool) : Variant := if b then .rfc7539 else .djb

/-- The bit that stands for a variant, in a command word and in STATUS.VARIANT (R24). -/
def Variant.bit : Variant → BitVec 1
  | .djb => 0#1
  | .rfc7539 => 1#1

/-- The fields of a command word (R100). -/
def CmdFields.ofWord (c : Word) : CmdFields :=
  { op := c.extractLsb' 0 8, v := c.extractLsb' 8 1, rsvd := c.extractLsb' 9 23 }

/-- The command word of three fields (R100). -/
def CmdFields.toWord (f : CmdFields) : Word := (f.rsvd ++ f.v ++ f.op : BitVec (23 + 1 + 8))

/-- The opcode map of R105: OP is compared for equality (R101); `none` is an illegal code (R106). The
variant is what INIT takes from the V bit. -/
def commandOf (op : BitVec 8) (v : Variant) : Option Instr :=
  if op = 0x00#8 then some .nop
  else if op = 0x01#8 then some (.init v)
  else if op = 0x02#8 then some .setKey
  else if op = 0x03#8 then some .setNonce
  else if op = 0x04#8 then some .setSeq
  else if op = 0x05#8 then some .getSeq
  else if op = 0x06#8 then some .incSeq
  else if op = 0x07#8 then some .genMask
  else if op = 0x08#8 then some .permuteBuf
  else if op = 0x10#8 then some .apply
  else if op = 0x11#8 then some .applyIp
  else if op = 0x12#8 then some .applySeek
  else if op = 0x13#8 then some .applySeekIp
  else none

/-- The decoding order of R109: (1) the OP, (2) the reserved bits, (3) the command. -/
def decode (c : Word) : Except DecodeError Instr :=
  let f := CmdFields.ofWord c
  match commandOf f.op (Variant.ofBit (f.v == 1#1)) with
  | none => .error .illegalOpcode
  | some i =>
    if f.rsvd ≠ 0#23 ∨ (f.v = 1#1 ∧ f.op ≠ 0x01#8) then .error .reservedBits
    else .ok i

/-- The operation code of a command (R105). -/
def opcodeOf : Instr → BitVec 8
  | .nop => 0x00#8
  | .init _ => 0x01#8
  | .setKey => 0x02#8
  | .setNonce => 0x03#8
  | .setSeq => 0x04#8
  | .getSeq => 0x05#8
  | .incSeq => 0x06#8
  | .genMask => 0x07#8
  | .permuteBuf => 0x08#8
  | .apply => 0x10#8
  | .applyIp => 0x11#8
  | .applySeek => 0x12#8
  | .applySeekIp => 0x13#8

/-- The V bit of a command's word: INIT's variant, else 0 (R100, R102). -/
def vBitOf : Instr → BitVec 1
  | .init v => v.bit
  | .nop | .setKey | .setNonce | .setSeq | .getSeq | .incSeq | .genMask | .permuteBuf
  | .apply | .applyIp | .applySeek | .applySeekIp => 0#1

/-- The fields of a command's word: RSVD is 0 (R103). -/
def fieldsOf (i : Instr) : CmdFields := { op := opcodeOf i, v := vBitOf i, rsvd := 0#23 }

/-- The command word of a command: the third column of R105. -/
def encode (i : Instr) : Word := (fieldsOf i).toWord

/-- The command this decoder reads from a word whose bits are `w`, given as `nbits` bits (the bits
above are 0); `none` where it rejects. A command word is one 32-bit bus write (R100), never bytes of a
memory (R87), so no byte order enters. -/
def decodeTableWord (nbits w : Nat) : Option Instr :=
  let v := w % 2 ^ nbits
  if v < 2 ^ 32 then
    match decode (BitVec.ofNat 32 v) with
    | .ok i => some i
    | .error _ => none
  else none

end Sys2Proof
end

