-- ==== Sys2Proof/Config.lean ====
section
/-! DEFINITION. What an implementation fixes (the OPEN parameters of 00_scope.md R8) and the free
values (the draws of 20_memory.md R74 and 70_reset_and_hazards.md R261). -/

namespace Sys2Proof

/-- The OPEN parameters of R8 that a rule of the block reads. They are an ARGUMENT of the model: State
carries them, no step changes them, and statements hold for all of them. `CMD_LATENCY` and
`PLATFORM_ORDERED` are the order of the events in `State.inbox` (DESIGN CHOICE, log entries 3 and 4).

`BUF_SIZE` is a power of two from 64 to 2^32: it is stored as the exponent above 6, so every value of
the field is a legal size and every legal size is a value of the field. -/
structure Params where
  /-- `REG_BASE`: platform address of the 256-byte register window (R29, R70). -/
  regBase : Nat
  /-- `BUF_BASE`: platform address of the BUF window (R70). -/
  bufBase : Nat
  /-- `BUF_SIZE` = 2 ^ (6 + bufLog) (R8). -/
  bufLog : Fin 27
  deriving DecidableEq, Repr

/-- `BUF_SIZE` in bytes (R8, R73). -/
def Params.bufSize (p : Params) : Nat := 2 ^ (6 + p.bufLog.val)

/-- R81: the platform maps the register window and the BUF window so that they do not overlap. -/
abbrev Params.wf (p : Params) : Prop :=
  p.regBase + 256 ≤ p.bufBase ∨ p.bufBase + p.bufSize ≤ p.regBase

/-- DESIGN CHOICE (log entry 1): the parameters `State.reset` is given. `BUF_SIZE` = 65536 is what the
vectors of 95_test_vectors.md assume; the two bases are the model's, disjoint as R81 requires. No
statement rests on them. -/
def Params.vectors : Params := ⟨0x40000000, 0x50000000, 10⟩

/-- FREE VALUE (R74, I10): what the byte of BUF at an address holds after power-on, as long as nothing
has written it: one unknown value for each address, never 0 by rule (log entry 5). DESIGN CHOICE (log entry 17): the
value depends on the address alone, so two instances, or two power-ons, would hold equal unknown bytes;
the spec leaves open how they are related, and the model is of one instance from one power-on. -/
opaque Config.powerOnByte : Nat → Byte

/-- FREE VALUE (R261, I11): the n-th byte drawn by a reset that lands during a command (log entry 7).
DESIGN CHOICE (log entry 17): the value depends on the number of the draw alone, also across two
instances, which the spec leaves open. -/
opaque Config.drawnByte : Nat → Byte

end Sys2Proof
end

