-- ==== Sys2Proof/Machine/State.lean ====
section
/-! DEFINITION. The state of the block, as plain data (10_state.md R20), the events its environment
sends it, the reasons a step can stop, and the state after reset (R48). -/

namespace Sys2Proof.Machine

open Sys2Proof

/-- The codes STATUS.CAUSE can hold (60_exceptions.md R231). Codes 5 to 15 are never written (R36), so
they are no value of this type. -/
inductive Cause where
  | ok
  | illegalOpcode
  | reservedBits
  | srcRange
  | dstRange
  deriving DecidableEq, Repr

/-- The stored fields of STATUS (R34). BUSY is the engine's phase and VARIANT is the variant bit: both
are computed views, `State.statusWord`. -/
structure Status where
  done : Bool
  illegal : Bool
  memerr : Bool
  ovr : Bool
  wrap : Bool
  cause : Cause
  deriving DecidableEq, Repr

/-- The operand registers (R28, R38 to R42), and the copy of their values that a busy engine has
latched (R44). -/
structure Operands where
  srcAddr : Word
  dstAddr : Word
  length : Word
  offsetLo : Word
  offsetHi : Word
  seqLo : Word
  seqHi : Word
  deriving DecidableEq, Repr

/-- The engine's phase (R44): idle, or busy with the command word and operand values latched at
acceptance. -/
inductive Engine where
  | idle
  | busy (cmd : Word) (ops : Operands)
  deriving DecidableEq, Repr

/-- BUF as the bytes that have been written since power-on: (address, byte) pairs, addresses strictly
rising. An address that is not listed has not been written and reads as the free value
`Config.powerOnByte` of it (R74; log entry 5). -/
abbrev Memory := List Host.Cell

/-- What the environment does to the block, one event at a time: the host's bus accesses in the order
the platform delivers them (R83), the reset input (R260), and the moment the running command completes
relative to them (`CMD_LATENCY`, R265). DESIGN CHOICE, log entries 2 to 4. -/
inductive Event where
  /-- the busy engine executes and completes its command (R265 phases 2 and 3); nothing when idle. -/
  | engineTurn
  /-- rst_n is asserted and released (R260, R261). -/
  | reset
  /-- a 32-bit host read at a platform address (R70 to R73). -/
  | busRead (addr : Nat)
  /-- a 32-bit host write at a platform address with byte strobes, bit j for byte lane j (R71, R73). -/
  | busWrite (addr : Nat) (data : Word) (strobes : BitVec 4)
  deriving DecidableEq, Repr

/-- Which window of the block a platform address lies in (R70). -/
inductive Target where
  /-- the register window, at this offset 0x00 to 0xFF. -/
  | reg (offset : Nat)
  /-- the BUF window, at this byte address below `BUF_SIZE`. -/
  | buf (a : Nat)
  deriving DecidableEq, Repr

/-- The registers of the register map (R29). -/
inductive Reg where
  | id
  | ctrl
  | status
  | cmd
  | srcAddr
  | dstAddr
  | length
  | offsetLo
  | offsetHi
  | seqLo
  | seqHi
  | word (k : Fin 16)
  | mask (k : Fin 16)
  | reserved
  deriving DecidableEq, Repr

/-- The whole machine. The first nine fields after the parameters are the architectural state of R20;
the last three are the model's own. -/
@[ext]
structure State where
  /-- the OPEN parameters (R8); no step changes them. -/
  params : Params
  /-- `W[0..15]` (R22). -/
  w : Words
  /-- `VARIANT` (R24). -/
  variant : Variant
  /-- `MASK[0..63]` (R27). -/
  mask : Mask
  /-- `SRC_ADDR` to `SEQ_HI` (R28, R38 to R42). -/
  regs : Operands
  /-- `CTRL.IE`, the one writable bit of CTRL (R33). -/
  ie : Bool
  /-- the stored fields of `STATUS` (R34). -/
  status : Status
  /-- the engine's phase and latched command (R44). -/
  engine : Engine
  /-- `BUF` (R73). -/
  buf : Memory
  /-- MODEL: how many bytes resets during a command have drawn so far (R261; log entry 7). -/
  draws : Nat
  /-- MODEL: the environment's events that have not happened yet, the next one first (log entry 2). -/
  inbox : List Event
  /-- MODEL: the data the host's reads have returned, the latest first (log entry 2). -/
  replies : List Word
  deriving DecidableEq, Repr

/-- Why a step can stop. -/
inductive Fault where
  /-- Raised by `step` for a bus event whose platform address lies in neither window of the block: the
  spec gives the block no such address (R70), the event is not one of this block. Safe: the model stops
  where the hardware sees nothing (log entry 6). -/
  | outsideWindows (addr : Nat)
  deriving DecidableEq, Repr

/-- Why a command can have no meaning. -/
inductive Refusal where
  /-- Raised by an arm of `exec` for a command that is not modelled yet; no arm of this model raises
  it. Safe: the model stops. -/
  | notModelled (mnemonic : String)
  deriving DecidableEq, Repr

/-- STATUS after reset: no flag set, CAUSE 0 (R48). -/
def Status.zero : Status := ⟨false, false, false, false, false, .ok⟩

/-- The operand registers after reset: all 0 (R48). -/
def Operands.zero : Operands := ⟨0#32, 0#32, 0#32, 0#32, 0#32, 0#32, 0#32⟩

/-- The state after power-on reset (R48) of a block with the given parameters: everything the spec
gives a reset value holds it, and BUF has nothing written. DESIGN CHOICE (log entry 17): it is the state of
the one instance that is modelled after its one power-on; it carries nothing that would tell the unknown
bytes of two instances (R250) or of two power-ons apart. -/
def State.resetOf (p : Params) : State where
  params := p
  w := Vector.replicate 16 0#32
  variant := .djb
  mask := Vector.replicate 64 0#8
  regs := Operands.zero
  ie := false
  status := Status.zero
  engine := .idle
  buf := []
  draws := 0
  inbox := []
  replies := []

/-- The machine right after reset (R48), with the parameters the spec's vectors assume. -/
def State.reset : State := State.resetOf Params.vectors

end Sys2Proof.Machine
end

