-- ==== Sys2Proof/Machine/Flags.lean ====
section
/-! DEFINITION. Every flag computation: the STATUS and CTRL words the host reads, write-one-to-clear,
the flags of a completion, OVR, WRAP and the irq output (10_state.md R33 to R36, R46; 60_exceptions.md). -/

namespace Sys2Proof.Machine

open Sys2Proof

/-- The 4-bit code of a cause (R231). -/
def Cause.code : Cause → BitVec 4
  | .ok => 0#4
  | .illegalOpcode => 1#4
  | .reservedBits => 2#4
  | .srcRange => 3#4
  | .dstRange => 4#4

/-- The causes STATUS.ILLEGAL records: codes 1 and 2 (R231, R235). -/
def Cause.setsIllegal : Cause → Bool
  | .illegalOpcode | .reservedBits => true
  | .ok | .srcRange | .dstRange => false

/-- The causes STATUS.MEMERR records: codes 3 and 4 (R231, R235). -/
def Cause.setsMemerr : Cause → Bool
  | .srcRange | .dstRange => true
  | .ok | .illegalOpcode | .reservedBits => false

/-- The cause of a word the decoder rejects (R232, R233). -/
def causeOfDecodeError : DecodeError → Cause
  | .illegalOpcode => .illegalOpcode
  | .reservedBits => .reservedBits

/-- STATUS at a completion with cause `c` (R235): CAUSE takes the code, the code's sticky bit and DONE
are set, OVR and WRAP are kept. -/
def Status.completed (st : Status) (c : Cause) : Status :=
  { st with
    done := true
    illegal := st.illegal || c.setsIllegal
    memerr := st.memerr || c.setsMemerr
    cause := c }

/-- STATUS at acceptance: DONE is cleared (R265). -/
def Status.accepted (st : Status) : Status := { st with done := false }

/-- STATUS when a host write is dropped: OVR is set, nothing else (R238). -/
def Status.overrun (st : Status) : Status := { st with ovr := true }

/-- STATUS.WRAP is set when `b` and is sticky (R163). -/
def Status.orWrap (st : Status) (b : Bool) : Status := { st with wrap := st.wrap || b }

/-- A host write of `v` to STATUS (R35): each of DONE, ILLEGAL, MEMERR, OVR, WRAP whose bit is 1 in `v`
is cleared; nothing is set; CAUSE is kept. -/
def Status.writeOneToClear (st : Status) (v : Word) : Status :=
  { st with
    done := st.done && !v.getLsbD 1
    illegal := st.illegal && !v.getLsbD 2
    memerr := st.memerr && !v.getLsbD 3
    ovr := st.ovr && !v.getLsbD 4
    wrap := st.wrap && !v.getLsbD 5 }

/-- STATUS.BUSY: the engine's phase (R44). -/
def State.isBusy (s : State) : Bool :=
  match s.engine with
  | .idle => false
  | .busy _ _ => true

/-- The word a read of STATUS returns (R34), from bit 31 down: 31:16 reserved, CAUSE 15:12, 11:9
reserved, VARIANT 8, 7:6 reserved, WRAP, OVR, MEMERR, ILLEGAL, DONE, BUSY. -/
def State.statusWord (s : State) : Word :=
  (0#16 ++ s.status.cause.code ++ 0#3 ++ s.variant.bit ++ 0#2
    ++ BitVec.ofBool s.status.wrap ++ BitVec.ofBool s.status.ovr ++ BitVec.ofBool s.status.memerr
    ++ BitVec.ofBool s.status.illegal ++ BitVec.ofBool s.status.done ++ BitVec.ofBool s.isBusy :
    BitVec (16 + 4 + 3 + 1 + 2 + 1 + 1 + 1 + 1 + 1 + 1))

/-- The word a read of CTRL returns (R33): IE in bit 0, the rest 0. -/
def State.ctrlWord (s : State) : Word := (0#31 ++ BitVec.ofBool s.ie : BitVec (31 + 1))

/-- The irq output: `CTRL.IE & STATUS.DONE` at every time (R46, R240). -/
def State.irq (s : State) : Bool := s.ie && s.status.done

end Sys2Proof.Machine
end

