-- ==== Sys2Proof/Machine/Operands.lean ====
section
/-! DEFINITION. Operand assembly (30_encoding.md R104, 10_state.md R44) and the data formats: byte
strings and little-endian packing (00_scope.md R11, R12), key, nonce, sequence, mask and offset formats
(30_encoding.md R110 to R118). -/

namespace Sys2Proof.Machine

open Sys2Proof

/-- The operand values of the running command: the values latched at acceptance (R44). DEDUCED
(log entry 11): a command run on an idle engine is accepted at that instant, with the registers as they
are; no step does this. -/
def State.operands (s : State) : Operands :=
  match s.engine with
  | .busy _ ops => ops
  | .idle => s.regs

/-- `OFFSET = OFFSET_HI : OFFSET_LO`, the 64-bit keystream byte offset (R41, R118). -/
def Operands.offset (o : Operands) : Nat := (o.offsetHi ++ o.offsetLo).toNat

/-- `SEQ_HI : SEQ_LO`, the 64-bit operand of SET_SEQ (R42, R116). -/
def Operands.seqValue (o : Operands) : Nat := (o.seqHi ++ o.seqLo).toNat

/-- `pad(s, n)`: exactly n bytes, the supplied bytes first, the rest zero, excess ignored (R11). -/
def padBytes (s : List Byte) (n : Nat) : List Byte :=
  s.take n ++ List.replicate (n - (s.take n).length) 0#8

/-- `LE32(s, i)`: four bytes from index i, the first the least significant (R12). -/
def le32 (s : List Byte) (i : Nat) : Word :=
  (s.getD (i + 3) 0#8 ++ s.getD (i + 2) 0#8 ++ s.getD (i + 1) 0#8 ++ s.getD i 0#8 :
    BitVec (8 + 8 + 8 + 8))

/-- Byte j of a word, `(w >> 8j) & 0xFF` (R12). -/
def byteOf (w : Word) (j : Nat) : Byte := w.extractLsb' (8 * j) 8

/-- `SER(w[0..15])`: byte `4k + j` is byte j of word k (R12, R117). -/
def serialize (w : Words) : Mask := Vector.ofFn fun i : Fin 64 => byteOf w[i.val / 4] (i.val % 4)

/-- The 16 words packed little-endian in a byte string of 64 bytes (R137). -/
def wordsOfBytes (s : List Byte) : Words := Vector.ofFn fun k : Fin 16 => le32 s (4 * k.val)

/-- Byte j of the mask (R27); only indices below 64 are ever asked for. -/
def maskByte (m : Mask) (j : Nat) : Byte := if h : j < 64 then m[j] else 0#8

/-- What register MASKk reads while idle, `LE32(MASK, 4k)` (R32). -/
def maskWord (m : Mask) (k : Nat) : Word := le32 m.toList (4 * k)

/-- `SIGMA32`, the words of "expand 32-byte k" (R110). -/
def sigma32 : Vector Word 4 := #v[0x61707865#32, 0x3320646e#32, 0x79622d32#32, 0x6b206574#32]

/-- `SIGMA16`, the words of "expand 16-byte k" (R110). -/
def sigma16 : Vector Word 4 := #v[0x61707865#32, 0x3120646e#32, 0x79622d36#32, 0x6b206574#32]

/-- Key bytes a SET_KEY reads: `min(LENGTH, 32)` (R152). -/
def keyBytesRead (len : Nat) : Nat := min len 32

/-- The short form of a DJB key, chosen by the length as supplied (R153, D14). -/
def isShortKey (v : Variant) (len : Nat) : Bool :=
  match v with
  | .djb => decide (len ≤ 16)
  | .rfc7539 => false

/-- R111: SIGMA16, and the 16-byte padded key in both halves. -/
def packShortKey (kb : List Byte) (w : Words) : Words :=
  let k := padBytes kb 16
  Vector.ofFn fun i : Fin 16 =>
    if h : i.val < 4 then sigma16[i.val]
    else if i.val < 8 then le32 k (4 * (i.val - 4))
    else if i.val < 12 then le32 k (4 * (i.val - 8))
    else w[i.val]

/-- R112, R113: SIGMA32, and the 32-byte padded key in order. -/
def packLongKey (kb : List Byte) (w : Words) : Words :=
  let k := padBytes kb 32
  Vector.ofFn fun i : Fin 16 =>
    if h : i.val < 4 then sigma32[i.val]
    else if i.val < 12 then le32 k (4 * (i.val - 4))
    else w[i.val]

/-- The words after SET_KEY with the key bytes `kb` read and `len` supplied (R152): W[0..11], no other
(R159). -/
def packKey (v : Variant) (len : Nat) (kb : List Byte) (w : Words) : Words :=
  if isShortKey v len then packShortKey kb w else packLongKey kb w

/-- Nonce capacity in bytes: 8 for DJB, 12 for RFC7539 (R155). -/
def nonceCap : Variant → Nat
  | .djb => 8
  | .rfc7539 => 12

/-- Nonce bytes a SET_NONCE reads: `min(LENGTH, cap)` (R155). -/
def nonceBytesRead (v : Variant) (len : Nat) : Nat := min len (nonceCap v)

/-- The words after SET_NONCE (R114, R115, R155): W[14..15] for DJB, W[13..15] for RFC7539, no other
(R159). -/
def packNonce (v : Variant) (nb : List Byte) (w : Words) : Words :=
  let n := padBytes nb (nonceCap v)
  match v with
  | .djb => (w.set 14 (le32 n 0)).set 15 (le32 n 4)
  | .rfc7539 => ((w.set 13 (le32 n 0)).set 14 (le32 n 4)).set 15 (le32 n 8)

/-- `CW`, the width of the sequence (R160). -/
def seqWidth : Variant → Nat
  | .djb => 64
  | .rfc7539 => 32

/-- `SEQ()`: the sequence held in the words, `W[13] : W[12]` or `W[12]` (R160). -/
def seqOf (v : Variant) (w : Words) : Nat :=
  match v with
  | .djb => (w[13] ++ w[12]).toNat
  | .rfc7539 => w[12].toNat

/-- The words with the sequence replaced by `n` mod 2^CW (R161, R191). In RFC7539, W[13] is a nonce
word and is not written. -/
def withSeq (v : Variant) (w : Words) (n : Nat) : Words :=
  match v with
  | .djb => (w.set 12 (BitVec.ofNat 32 n)).set 13 (BitVec.ofNat 32 (n >>> 32))
  | .rfc7539 => w.set 12 (BitVec.ofNat 32 n)

end Sys2Proof.Machine
end

