-- ==== Sys2Proof/Machine/Ops.lean ====
section
/-! DEFINITION. The named operations over memory, state words and the command lifecycle: BUF bytes and
RangeOK (20_memory.md R73 to R79), SetSeq and IncSeq (41_state_manager.md R161, R162), acceptance and
completion (70_reset_and_hazards.md R265; 60_exceptions.md R235, R236), and reset (R260, R261). -/

namespace Sys2Proof.Machine

open Sys2Proof

/-- The canonical form of a memory: addresses strictly rising. An unlisted address holds no written
byte, so no entry can equal what it reads as at this level (log entry 5). -/
abbrev Memory.wf (m : Memory) : Prop := m.Pairwise fun x y => x.1 < y.1

/-- The byte last written at an address, `none` where nothing has been written since power-on. -/
def Memory.read? : Memory → Nat → Option Byte
  | [], _ => none
  | (b, v) :: m, a => if a = b then some v else Memory.read? m a

/-- Write one byte, keeping the canonical form. -/
def Memory.write : Memory → Nat → Byte → Memory
  | [], a, v => [(a, v)]
  | (b, u) :: m, a, v =>
    if a < b then (a, v) :: (b, u) :: m
    else if a = b then (a, v) :: m
    else (b, u) :: Memory.write m a v

/-- `MemRead(a, 1)` (R13, R76): the byte last written, or the power-on draw of a byte nothing has
written (R74, R88). -/
def State.memRead (s : State) (a : Nat) : Byte := (s.buf.read? a).getD (Config.powerOnByte a)

/-- `MemRead(a, n)`: n bytes in increasing address order (R13). -/
def State.memReadBytes (s : State) (a n : Nat) : List Byte :=
  (List.range n).map fun j => s.memRead (a + j)

/-- `MemWrite(a, 1, v)` (R13, R76). -/
def State.memWrite (s : State) (a : Nat) (v : Byte) : State := { s with buf := s.buf.write a v }

/-- Write a byte string from address `a` up, byte by byte in increasing order (R13, R137). -/
def State.memWriteBytes (s : State) (a : Nat) : List Byte → State
  | [] => s
  | v :: vs => (s.memWrite a v).memWriteBytes (a + 1) vs

/-- `RangeOK(base, n)` on unbounded integers (R79). -/
def rangeOk (p : Params) (base : Word) (n : Nat) : Bool :=
  n == 0 || decide (base.toNat + n ≤ p.bufSize)

/-- `SetSeq(v)` (R161): the sequence becomes `n` mod 2^CW, and WRAP records a truncation. -/
def State.setSeq (s : State) (n : Nat) : State :=
  { s with
    w := withSeq s.variant s.w n
    status := s.status.orWrap (decide (2 ^ seqWidth s.variant ≤ n)) }

/-- `IncSeq()` (R162): the sequence becomes its successor mod 2^CW, and WRAP records that it became 0. -/
def State.incSeq (s : State) : State :=
  let t := (seqOf s.variant s.w + 1) % 2 ^ seqWidth s.variant
  { s with
    w := withSeq s.variant s.w t
    status := s.status.orWrap (decide (t = 0)) }

/-- Acceptance of the command word `c` (R265 phase 1): it and the operand registers are latched, BUSY
is set, DONE is cleared. -/
def State.accept (s : State) (c : Word) : State :=
  { s with engine := .busy c s.regs, status := s.status.accepted }

/-- Completion with cause `c` (R235), the one instant at which STATUS takes the result and the engine
becomes idle (WRAP included: DEDUCED, log entry 16). With a cause other than `ok` it is `raise CmdError(c)` (R236): called on the state before
the command's first effect, it changes nothing else. There is no trap and no return (R230). -/
def State.complete (s : State) (c : Cause) : State :=
  { s with engine := .idle, status := s.status.completed c }

/-- A host write that meets a busy engine: dropped, and OVR is set (R238). -/
def State.dropWrite (s : State) : State := { s with status := s.status.overrun }

/-- The destination range, (first address, length), of a latched command (R261): the bytes a reset
during it leaves unspecified. Words that decode to no command have none, nor do the commands that
write no BUF byte. DEDUCED (log entry 8): the range is the rule's own, also for a command that would
report an error. -/
def destRange (cmd : Word) (o : Operands) : Nat × Nat :=
  match decode cmd with
  | .error _ => (0, 0)
  | .ok .permuteBuf => (o.dstAddr.toNat, 64)
  | .ok .apply => (o.dstAddr.toNat, o.length.toNat)
  | .ok .applySeek => (o.dstAddr.toNat, o.length.toNat)
  | .ok .applyIp => (o.srcAddr.toNat, o.length.toNat)
  | .ok .applySeekIp => (o.srcAddr.toNat, o.length.toNat)
  | .ok .nop | .ok (.init _) | .ok .setKey | .ok .setNonce | .ok .setSeq | .ok .getSeq
  | .ok .incSeq | .ok .genMask => (0, 0)

/-- Replace the BUF bytes among the `n` from address `a` up by fresh draws, the k-th one by draw
`i + k` (R261, I11). -/
def Memory.drawBytes (size : Nat) (m : Memory) (a i : Nat) : Nat → Memory
  | 0 => m
  | n + 1 =>
    Memory.drawBytes size (if a < size then m.write a (Config.drawnByte i) else m) (a + 1) (i + 1) n

/-- The bytes a reset makes unspecified in this state: those of the running command's destination
range, none when idle (R261). -/
def State.resetRange (s : State) : Nat × Nat :=
  match s.engine with
  | .idle => (0, 0)
  | .busy cmd ops => destRange cmd ops

/-- Reset (R260, R261): every state element but BUF takes its reset value; a running command is
abandoned and its destination bytes become draws. DESIGN CHOICE (log entry 10): assertion and
release are one instant; the environment's events and what the host has read are not the block's and
stay. -/
def State.hardReset (s : State) : State :=
  { State.resetOf s.params with
    buf := Memory.drawBytes s.params.bufSize s.buf s.resetRange.1 s.draws s.resetRange.2
    draws := s.draws + s.resetRange.2
    inbox := s.inbox
    replies := s.replies }

end Sys2Proof.Machine
end

