-- ==== Sys2Proof/Machine/Permutation.lean ====
section
/-! DEFINITION. The block permutation and the commands that expose it, GEN_MASK and PERMUTE_BUF
(40_block_permutation.md R130 to R138). -/

namespace Sys2Proof.Machine

open Sys2Proof

/-- `rotl32(v, n)` (R10). -/
def rotl32 (v : Word) (n : Nat) : Word := v.rotateLeft n

/-- One line of the quarter round (R130): `x[a] <- x[a] + x[b]; x[d] <- rotl32(x[d] ^ x[a], n)`. -/
def quarterLine (x : Words) (a b d : Fin 16) (n : Nat) : Words :=
  let y := x.set a (x[a] + x[b])
  y.set d (rotl32 (y[d] ^^^ y[a]) n)

/-- The quarter round `QR(x, a, b, c, d)`, line by line (R130). -/
def quarterRound (x : Words) (a b c d : Fin 16) : Words :=
  quarterLine (quarterLine (quarterLine (quarterLine x a b d 16) c d b 12) a b d 8) c d b 7

/-- R131. -/
def columnPass (x : Words) : Words :=
  quarterRound (quarterRound (quarterRound (quarterRound x 0 4 8 12) 1 5 9 13) 2 6 10 14) 3 7 11 15

/-- R132. -/
def diagonalPass (x : Words) : Words :=
  quarterRound (quarterRound (quarterRound (quarterRound x 0 5 10 15) 1 6 11 12) 2 7 8 13) 3 4 9 14

/-- `n` double rounds, each a column pass and then a diagonal pass (R133). -/
def doubleRounds : Nat → Words → Words
  | 0, x => x
  | n + 1, x => doubleRounds n (diagonalPass (columnPass x))

/-- The 16 result words of the permutation: 10 double rounds, then the feed-forward (R134). -/
def permuteWords (w : Words) : Words :=
  let x := doubleRounds 10 w
  Vector.ofFn fun k : Fin 16 => x[k] + w[k]

/-- `permute(w)`: the result words serialized little-endian (R134). Pure (R135). -/
def permute (w : Words) : Mask := serialize (permuteWords w)

/-- `MASK <- permute(W[0..15])` (R136, R194, R199). -/
def State.generateMask (s : State) : State := { s with mask := permute s.w }

/-- GEN_MASK (R136). -/
def execGenMask (s : State) : Host.Outcome State Fault Refusal :=
  .next (s.generateMask.complete .ok)

/-- PERMUTE_BUF (R137): both ranges are checked, source first, before all 64 source bytes are read and
then the 64 mask bytes written. -/
def execPermuteBuf (s : State) : Host.Outcome State Fault Refusal :=
  let o := s.operands
  if !rangeOk s.params o.srcAddr 64 then .next (s.complete .srcRange)
  else if !rangeOk s.params o.dstAddr 64 then .next (s.complete .dstRange)
  else
    let m := permute (wordsOfBytes (s.memReadBytes o.srcAddr.toNat 64))
    .next ((({ s with mask := m } : State).memWriteBytes o.dstAddr.toNat m.toList).complete .ok)

end Sys2Proof.Machine
end

