-- ==== Sys2Proof/Machine/Applier.lean ====
section
/-! DEFINITION. The stream applier: NOP, APPLY, APPLY_IP, APPLY_SEEK, APPLY_SEEK_IP
(42_stream_applier.md). -/

namespace Sys2Proof.Machine

open Sys2Proof

/-- The keystream block with index b, `KB(W, b)` (R191). -/
def keystreamBlock (v : Variant) (w : Words) (b : Nat) : Mask := permute (withSeq v w b)

/-- The keystream byte at position p, `KS(W, p)` (R191). -/
def keystreamByte (v : Variant) (w : Words) (p : Nat) : Byte :=
  maskByte (keystreamBlock v w (p / 64)) (p % 64)

/-- `NULL_ADDR` = 0 (R8, R198). -/
def nullAddr : Word := 0#32

/-- XOR `n` source bytes from address `a` into the destination from `d` up, with the mask bytes from
index `j` up: each source byte is read, combined (R192) and written before the next is read (R193). -/
def xorBytes (d a j : Nat) : Nat → State → State
  | 0, s => s
  | n + 1, s => xorBytes (d + 1) (a + 1) (j + 1) n (s.memWrite d (s.memRead a ^^^ maskByte s.mask j))

/-- The loop of `ApplySeq(d, a, L)` (R194) from byte `i` on; `fuel` bounds the blocks left. -/
def applySeqLoop (d a L : Nat) : (fuel : Nat) → (i : Nat) → State → State
  | 0, _, s => s
  | fuel + 1, i, s =>
    if i < L then
      let n := min 64 (L - i)
      applySeqLoop d a L fuel (i + n) (xorBytes (d + i) (a + i) 0 n s.generateMask.incSeq)
    else s

/-- `ApplySeq(d, a, L)` (R194): ceil(L / 64) blocks. -/
def applySeq (d a L : Nat) (s : State) : State := applySeqLoop d a L ((L + 63) / 64) 0 s

/-- What the seeked loop does before a byte (R199): at intra-block index 64 it increments the sequence,
regenerates the mask and restarts the index. -/
def State.atBlockEnd (s : State) (idx : Nat) : State := if idx = 64 then s.incSeq.generateMask else s

/-- The byte loop of `ApplySeek` (R199): `n` bytes left, intra-block index `idx`. -/
def applySeekLoop (d a : Nat) : (n : Nat) → (idx : Nat) → State → State
  | 0, _, s => s
  | n + 1, idx, s =>
    let t := s.atBlockEnd idx
    let j := if idx = 64 then 0 else idx
    applySeekLoop (d + 1) (a + 1) n (j + 1) (t.memWrite d (t.memRead a ^^^ maskByte t.mask j))

/-- `ApplySeek(d, a, L, off)` (R199). -/
def applySeekAt (d a L off : Nat) (s : State) : State :=
  applySeekLoop d a L (off % 64) (s.setSeq (off / 64)).generateMask

/-- NOP (R190). -/
def execNop (s : State) : Host.Outcome State Fault Refusal := .next (s.complete .ok)

/-- APPLY (R195): the no-op test comes before the range checks (R198, R237). -/
def execApply (s : State) : Host.Outcome State Fault Refusal :=
  let o := s.operands
  let L := o.length.toNat
  if L = 0 ∨ o.srcAddr = nullAddr then .next (s.complete .ok)
  else if !rangeOk s.params o.srcAddr L then .next (s.complete .srcRange)
  else if !rangeOk s.params o.dstAddr L then .next (s.complete .dstRange)
  else .next ((applySeq o.dstAddr.toNat o.srcAddr.toNat L s).complete .ok)

/-- APPLY_IP (R196): the buffer is at SRC_ADDR; DST_ADDR is ignored. -/
def execApplyIp (s : State) : Host.Outcome State Fault Refusal :=
  let o := s.operands
  let L := o.length.toNat
  if L = 0 ∨ o.srcAddr = nullAddr then .next (s.complete .ok)
  else if !rangeOk s.params o.srcAddr L then .next (s.complete .srcRange)
  else .next ((applySeq o.srcAddr.toNat o.srcAddr.toNat L s).complete .ok)

/-- APPLY_SEEK (R200): no null check and no length check (R203). -/
def execApplySeek (s : State) : Host.Outcome State Fault Refusal :=
  let o := s.operands
  let L := o.length.toNat
  if !rangeOk s.params o.srcAddr L then .next (s.complete .srcRange)
  else if !rangeOk s.params o.dstAddr L then .next (s.complete .dstRange)
  else .next ((applySeekAt o.dstAddr.toNat o.srcAddr.toNat L o.offset s).complete .ok)

/-- APPLY_SEEK_IP (R201). -/
def execApplySeekIp (s : State) : Host.Outcome State Fault Refusal :=
  let o := s.operands
  let L := o.length.toNat
  if !rangeOk s.params o.srcAddr L then .next (s.complete .srcRange)
  else .next ((applySeekAt o.srcAddr.toNat o.srcAddr.toNat L o.offset s).complete .ok)

end Sys2Proof.Machine
end

