-- ==== Sys2Proof/Machine/StateManager.lean ====
section
/-! DEFINITION. The state manager: INIT, SET_KEY, SET_NONCE, SET_SEQ, GET_SEQ, INC_SEQ
(41_state_manager.md). -/

namespace Sys2Proof.Machine

open Sys2Proof

/-- INIT (R150): all state words and mask bytes 0, VARIANT from the V bit. -/
def execInit (v : Variant) (s : State) : Host.Outcome State Fault Refusal :=
  .next (({ s with
    w := Vector.replicate 16 0#32
    variant := v
    mask := Vector.replicate 64 0#8 } : State).complete .ok)

/-- SET_KEY (R152): at most 32 bytes are read, and only they are range-checked. -/
def execSetKey (s : State) : Host.Outcome State Fault Refusal :=
  let o := s.operands
  let n := o.length.toNat
  let m := keyBytesRead n
  if !rangeOk s.params o.srcAddr m then .next (s.complete .srcRange)
  else
    let kb := s.memReadBytes o.srcAddr.toNat m
    .next (({ s with w := packKey s.variant n kb s.w } : State).complete .ok)

/-- SET_NONCE (R155). -/
def execSetNonce (s : State) : Host.Outcome State Fault Refusal :=
  let o := s.operands
  let m := nonceBytesRead s.variant o.length.toNat
  if !rangeOk s.params o.srcAddr m then .next (s.complete .srcRange)
  else
    let nb := s.memReadBytes o.srcAddr.toNat m
    .next (({ s with w := packNonce s.variant nb s.w } : State).complete .ok)

/-- SET_SEQ (R165): `SetSeq(SEQ_HI : SEQ_LO)`. -/
def execSetSeq (s : State) : Host.Outcome State Fault Refusal :=
  .next ((s.setSeq s.operands.seqValue).complete .ok)

/-- GET_SEQ (R166): the one command that writes operand registers (R28). -/
def execGetSeq (s : State) : Host.Outcome State Fault Refusal :=
  let hi := match s.variant with
    | .djb => s.w[13]
    | .rfc7539 => 0#32
  .next (({ s with regs := { s.regs with seqLo := s.w[12], seqHi := hi } } : State).complete .ok)

/-- INC_SEQ (R167): `IncSeq()`. -/
def execIncSeq (s : State) : Host.Outcome State Fault Refusal :=
  .next (s.incSeq.complete .ok)

end Sys2Proof.Machine
end

