-- ==== Sys2Proof/Machine/Dispatch.lean ====
section
/-! DEFINITION. The commands' meanings, one arm for each constructor of Instr (30_encoding.md R105). -/

namespace Sys2Proof.Machine
open Sys2Proof

/-- The whole effect of one command, its completion included (70_reset_and_hazards.md R265, R271). -/
def exec (i : Instr) (s : State) : Host.Outcome State Fault Refusal :=
  match i with
  | .nop => Sys2Proof.Machine.execNop s
  | .init v => Sys2Proof.Machine.execInit v s
  | .setKey => Sys2Proof.Machine.execSetKey s
  | .setNonce => Sys2Proof.Machine.execSetNonce s
  | .setSeq => Sys2Proof.Machine.execSetSeq s
  | .getSeq => Sys2Proof.Machine.execGetSeq s
  | .incSeq => Sys2Proof.Machine.execIncSeq s
  | .genMask => Sys2Proof.Machine.execGenMask s
  | .permuteBuf => Sys2Proof.Machine.execPermuteBuf s
  | .apply => Sys2Proof.Machine.execApply s
  | .applyIp => Sys2Proof.Machine.execApplyIp s
  | .applySeek => Sys2Proof.Machine.execApplySeek s
  | .applySeekIp => Sys2Proof.Machine.execApplySeekIp s

end Sys2Proof.Machine
end

