-- ==== Sys2Proof/Machine/HostPort.lean ====
section
/-! DEFINITION. The host's slave port: the register window and the BUF window (10_state.md R29 to R44;
20_memory.md R70 to R73). -/

namespace Sys2Proof.Machine

open Sys2Proof

/-- The window a platform address lies in, `none` where it is no address of the block (R70).
DESIGN CHOICE (log entry 13): where R81 is broken the register window wins. -/
def targetOf (p : Params) (addr : Nat) : Option Target :=
  if p.regBase ≤ addr ∧ addr < p.regBase + 256 then some (.reg (addr - p.regBase))
  else if p.bufBase ≤ addr ∧ addr < p.bufBase + p.bufSize then some (.buf (addr - p.bufBase))
  else none

/-- The register at an offset of the register window (R29); bits [1:0] are ignored (R71). -/
def regAt (offset : Nat) : Reg :=
  let o := offset / 4 * 4
  if o = 0x00 then .id
  else if o = 0x04 then .ctrl
  else if o = 0x08 then .status
  else if o = 0x0C then .cmd
  else if o = 0x10 then .srcAddr
  else if o = 0x14 then .dstAddr
  else if o = 0x18 then .length
  else if o = 0x1C then .offsetLo
  else if o = 0x20 then .offsetHi
  else if o = 0x24 then .seqLo
  else if o = 0x28 then .seqHi
  else if h : 0x40 ≤ o ∧ o < 0x80 then .word ⟨(o - 0x40) / 4, by omega⟩
  else if h : 0x80 ≤ o ∧ o < 0xC0 then .mask ⟨(o - 0x80) / 4, by omega⟩
  else .reserved

/-- The hardwired ID, "CC20" (R30). -/
def idWord : Word := 0x43433230#32

/-- The value while idle, 0 while busy (R44). -/
def State.hiddenWhileBusy (s : State) (v : Word) : Word := if s.isBusy then 0#32 else v

/-- The word a host read of a register returns (R30 to R44). No read has a side effect (R72). -/
def State.regRead (s : State) : Reg → Word
  | .id => idWord
  | .ctrl => s.ctrlWord
  | .status => s.statusWord
  | .cmd => 0#32
  | .srcAddr => s.regs.srcAddr
  | .dstAddr => s.regs.dstAddr
  | .length => s.regs.length
  | .offsetLo => s.regs.offsetLo
  | .offsetHi => s.regs.offsetHi
  | .seqLo => s.hiddenWhileBusy s.regs.seqLo
  | .seqHi => s.hiddenWhileBusy s.regs.seqHi
  | .word k => s.hiddenWhileBusy s.w[k]
  | .mask k => s.hiddenWhileBusy (maskWord s.mask k.val)
  | .reserved => 0#32

/-- A host write of the operand registers: done while idle, dropped with OVR while busy (R28, R44). -/
def State.writeOperands (s : State) (o : Operands) : State :=
  if s.isBusy then s.dropWrite else { s with regs := o }

/-- A host write of a register (R30 to R44). Strobes are ignored: all 32 bits are written (R71). -/
def State.regWrite (s : State) (r : Reg) (v : Word) : State :=
  match r with
  | .ctrl => { s with ie := v.getLsbD 0 }
  | .status => { s with status := s.status.writeOneToClear v }
  | .cmd => if s.isBusy then s.dropWrite else s.accept v
  | .srcAddr => s.writeOperands { s.regs with srcAddr := v }
  | .dstAddr => s.writeOperands { s.regs with dstAddr := v }
  | .length => s.writeOperands { s.regs with length := v }
  | .offsetLo => s.writeOperands { s.regs with offsetLo := v }
  | .offsetHi => s.writeOperands { s.regs with offsetHi := v }
  | .seqLo => s.writeOperands { s.regs with seqLo := v }
  | .seqHi => s.writeOperands { s.regs with seqHi := v }
  | .id | .word _ | .mask _ | .reserved => s

/-- The BUF address of byte lane 0 of the bus word an access acts on: `a & ~3` (R73). -/
def laneBase (a : Nat) : Nat := a / 4 * 4

/-- The bus word a host read of the BUF window returns, lane j from byte `a' + j`; 0 while busy (R73). -/
def State.bufRead (s : State) (a : Nat) : Word :=
  s.hiddenWhileBusy (le32 (s.memReadBytes (laneBase a) 4) 0)

/-- One byte lane of a BUF write: stored only where its strobe is 1 (R73). -/
def State.writeLane (s : State) (a : Nat) (v : Word) (strobes : BitVec 4) (j : Nat) : State :=
  if strobes.getLsbD j then s.memWrite (laneBase a + j) (byteOf v j) else s

/-- A host write of the BUF window: the strobed lanes while idle, dropped with OVR while busy (R73).
DEDUCED (log entry 12): while busy also with every strobe 0. -/
def State.bufWrite (s : State) (a : Nat) (v : Word) (strobes : BitVec 4) : State :=
  if s.isBusy then s.dropWrite
  else (((s.writeLane a v strobes 0).writeLane a v strobes 1).writeLane a v strobes 2).writeLane
    a v strobes 3

/-- The data of a host read of a window (R71, R73). -/
def State.targetRead (s : State) : Target → Word
  | .reg o => s.regRead (regAt o)
  | .buf a => s.bufRead a

/-- A host write to a window (R71, R73). -/
def State.targetWrite (s : State) (t : Target) (v : Word) (strobes : BitVec 4) : State :=
  match t with
  | .reg o => s.regWrite (regAt o) v
  | .buf a => s.bufWrite a v strobes

/-- A bus read: the data goes to the host and nothing of the block changes (R72, R80). -/
def State.busRead (s : State) (addr : Nat) : Host.Outcome State Fault Refusal :=
  match targetOf s.params addr with
  | none => .fault (.outsideWindows addr)
  | some t => .next { s with replies := s.targetRead t :: s.replies }

/-- A bus write (R71, R73). -/
def State.busWrite (s : State) (addr : Nat) (v : Word) (strobes : BitVec 4) :
    Host.Outcome State Fault Refusal :=
  match targetOf s.params addr with
  | none => .fault (.outsideWindows addr)
  | some t => .next (s.targetWrite t v strobes)

end Sys2Proof.Machine
end

