-- ==== Sys2Proof/Machine/Events.lean ====
section
/-! DEFINITION. What one event of the environment does, the engine's turn among them
(70_reset_and_hazards.md R260, R265, R271). -/

namespace Sys2Proof.Machine

open Sys2Proof

/-- The engine's turn. An idle engine does nothing (R249); a busy one decodes its latched word (R109),
and then either completes with cause 1 or 2 and no other effect (R232, R233) or runs the command.
DEDUCED (log entry 9): a rejected word completes at the engine's turn like a command. -/
def State.engineTurn (s : State) : Host.Outcome State Fault Refusal :=
  match s.engine with
  | .idle => .next s
  | .busy cmd _ =>
    match decode cmd with
    | .error e => .next (s.complete (causeOfDecodeError e))
    | .ok i => exec i s

/-- One event of the environment. -/
def State.takeEvent (s : State) : Event → Host.Outcome State Fault Refusal
  | .engineTurn => s.engineTurn
  | .reset => .next s.hardReset
  | .busRead addr => s.busRead addr
  | .busWrite addr v strobes => s.busWrite addr v strobes

end Sys2Proof.Machine
end

