-- ==== Sys2Proof/Machine/Step.lean ====
section
/-! DEFINITION. One step of the block: the next event of its environment, or the engine's turn
(70_reset_and_hazards.md R265, R271). -/

namespace Sys2Proof.Machine

open Sys2Proof

/-- One step: the next event happens; with none left, the engine has its turn, so that every accepted
command completes (R273; DESIGN CHOICE, log entry 3). -/
def step (s : State) : Host.Outcome State Fault Refusal :=
  match s.inbox with
  | [] => s.engineTurn
  | e :: rest => ({ s with inbox := rest } : State).takeEvent e

/-- The state in which the command word whose bits are `w` has just been accepted (R265 phase 1) and
the next event is the engine's turn: the very next step runs it (log entry 14). -/
def State.withFetchWord (s : State) (nbits w : Nat) : State :=
  let t := s.accept (BitVec.ofNat 32 (w % 2 ^ nbits))
  { t with inbox := .engineTurn :: s.inbox }

end Sys2Proof.Machine
end

