-- ==== Sys2Proof/Machine/HostAsm.lean ====
section
/-! DEFINITION. The host assembly of 30_encoding.md R119 and R120, as the bus events it is encoded to.
It is the language of programs for the block; the block itself only sees the events. -/

namespace Sys2Proof.Machine

open Sys2Proof

/-- A source line that is one bus transaction (R119). -/
inductive AsmLine where
  | wr (reg : Reg) (imm : Word)
  | rd (reg : Reg)
  | wrb (addr : Nat) (imm : Word) (strobes : BitVec 4)
  | rdb (addr : Nat)
  | cmd (i : Instr)
  deriving DecidableEq, Repr

/-- The pseudo-instructions (R120). -/
inductive Pseudo where
  | wait
  | init (v : Variant)
  | loadKey (a n : Word)
  | loadNonce (a n : Word)
  | setSeq (v : BitVec 64)
  | getSeq
  | crypt (d s n : Word)
  | cryptIp (b n : Word)
  | cryptAt (d s n : Word) (o : BitVec 64)
  | cryptAtIp (b n : Word) (o : BitVec 64)
  | clrStat
  deriving DecidableEq, Repr

/-- The offset of a register (R29); for `reserved`, the first reserved one. -/
def offsetOf : Reg → Nat
  | .id => 0x00
  | .ctrl => 0x04
  | .status => 0x08
  | .cmd => 0x0C
  | .srcAddr => 0x10
  | .dstAddr => 0x14
  | .length => 0x18
  | .offsetLo => 0x1C
  | .offsetHi => 0x20
  | .seqLo => 0x24
  | .seqHi => 0x28
  | .word k => 0x40 + 4 * k.val
  | .mask k => 0x80 + 4 * k.val
  | .reserved => 0x2C

/-- The bus transaction of a line (R119). -/
def AsmLine.event (p : Params) : AsmLine → Event
  | .wr r v => .busWrite (p.regBase + offsetOf r) v 0xF#4
  | .rd r => .busRead (p.regBase + offsetOf r)
  | .wrb a v st => .busWrite (p.bufBase + a) v st
  | .rdb a => .busRead (p.bufBase + a)
  | .cmd i => .busWrite (p.regBase + offsetOf .cmd) (encode i) 0xF#4

/-- The events of `WAIT` (R120) when `polls` reads of STATUS find the engine still busy: the command
completes before the read that finds BUSY = 0 (DESIGN CHOICE, log entry 15). -/
def waitEvents (p : Params) (polls : Nat) : List Event :=
  List.replicate polls (AsmLine.event p (.rd .status))
    ++ [.engineTurn, AsmLine.event p (.rd .status)]

/-- The lines a pseudo-instruction expands to before its `WAIT` (R120). -/
def Pseudo.before : Pseudo → List AsmLine
  | .wait => []
  | .init v => [.cmd (.init v)]
  | .loadKey a n => [.wr .srcAddr a, .wr .length n, .cmd .setKey]
  | .loadNonce a n => [.wr .srcAddr a, .wr .length n, .cmd .setNonce]
  | .setSeq v =>
    [.wr .seqLo (v.extractLsb' 0 32), .wr .seqHi (v.extractLsb' 32 32), .cmd .setSeq]
  | .getSeq => [.cmd .getSeq]
  | .crypt d s n => [.wr .dstAddr d, .wr .srcAddr s, .wr .length n, .cmd .apply]
  | .cryptIp b n => [.wr .srcAddr b, .wr .length n, .cmd .applyIp]
  | .cryptAt d s n o =>
    [.wr .dstAddr d, .wr .srcAddr s, .wr .length n, .wr .offsetLo (o.extractLsb' 0 32),
      .wr .offsetHi (o.extractLsb' 32 32), .cmd .applySeek]
  | .cryptAtIp b n o =>
    [.wr .srcAddr b, .wr .length n, .wr .offsetLo (o.extractLsb' 0 32),
      .wr .offsetHi (o.extractLsb' 32 32), .cmd .applySeekIp]
  | .clrStat => [.wr .status 0x0000003E#32]

/-- The lines a pseudo-instruction expands to after its `WAIT` (R120). -/
def Pseudo.after : Pseudo → List AsmLine
  | .getSeq => [.rd .seqLo, .rd .seqHi]
  | .wait | .init _ | .loadKey _ _ | .loadNonce _ _ | .setSeq _ | .crypt _ _ _ | .cryptIp _ _
  | .cryptAt _ _ _ _ | .cryptAtIp _ _ _ | .clrStat => []

/-- Whether the expansion waits: all but CLRSTAT, which issues no command (R120). -/
def Pseudo.waits : Pseudo → Bool
  | .clrStat => false
  | .wait | .init _ | .loadKey _ _ | .loadNonce _ _ | .setSeq _ | .getSeq | .crypt _ _ _
  | .cryptIp _ _ | .cryptAt _ _ _ _ | .cryptAtIp _ _ _ => true

/-- The events of a pseudo-instruction's exact expansion (R120). -/
def Pseudo.events (p : Params) (polls : Nat) (x : Pseudo) : List Event :=
  x.before.map (AsmLine.event p) ++ (if x.waits then waitEvents p polls else [])
    ++ x.after.map (AsmLine.event p)

end Sys2Proof.Machine
end

