-- ==== Sys2Proof/Safety.lean ====
section
/-! DEFINITION. The terms claims use: the invariant of the machine, a run that keeps to the block's
windows, what a byte-serial XOR stream leaves in BUF (42_stream_applier.md R193), and the commands of a
host that loads operands and issues one command after another. -/

namespace Sys2Proof.Machine

open Sys2Proof

/-- Every listed address is an address of BUF (R73). -/
abbrev Memory.inside (m : Memory) (size : Nat) : Prop := ∀ x ∈ m, x.1 < size

/-- BUF is in canonical form and lists only addresses of BUF. -/
structure State.BufOk (s : State) : Prop where
  wf : s.buf.wf
  inside : s.buf.inside s.params.bufSize

/-- The engine's latch: a busy engine has latched exactly the operand registers, which the host cannot
change while it runs (R28, R44), and DONE is 0 while BUSY is 1 (R78, R265). -/
def State.LatchOk (s : State) : Prop :=
  match s.engine with
  | .idle => True
  | .busy _ ops => ops = s.regs ∧ s.status.done = false

/-- The invariant every step keeps. -/
structure State.Inv (s : State) : Prop where
  buf : s.BufOk
  latch : s.LatchOk

/-- A bus event addresses one of the block's windows (R70). -/
def Event.inWindows (p : Params) : Event → Bool
  | .engineTurn => true
  | .reset => true
  | .busRead addr => (targetOf p addr).isSome
  | .busWrite addr _ _ => (targetOf p addr).isSome

/-- Every event still to come is the block's own: none is a bus access outside its windows. -/
def State.NoStray (s : State) : Prop := ∀ e ∈ s.inbox, e.inWindows s.params = true

/-- The next step is the engine's turn: its event is the next one, or no event is left (log entry 3). -/
def State.TurnIsNext (s : State) : Prop := s.inbox = [] ∨ ∃ rest, s.inbox = .engineTurn :: rest

/-- From `s` to `t` the bytes at `a .. a+L-1` were XORed with `ks 0 .. ks (L-1)` into `d .. d+L-1`, byte
by byte in increasing order, each source byte read after the writes before it (R192, R193, R206): a
source byte that lies among the destination bytes already written is read as written, every other one
as it was. -/
structure Streamed (d a L : Nat) (ks : Nat → Byte) (s t : State) : Prop where
  inside : ∀ i, i < L → t.memRead (d + i) =
    (if d ≤ a + i ∧ a + i < d + i then t.memRead (a + i) else s.memRead (a + i)) ^^^ ks i
  outside : ∀ b, ¬ (d ≤ b ∧ b < d + L) → t.memRead b = s.memRead b

/-- The state in which the host has loaded the operand registers with `o` and the engine has accepted
the command `i` with them (R265 phase 1). -/
def State.issued (s : State) (i : Instr) (o : Operands) : State :=
  ({ s with regs := o } : State).accept (encode i)

/-- One seeked chunk for each length: chunk j reads from `a + pos`, writes to `d + pos` and has offset
`pos`, where `pos` is the sum of the lengths before it (R204 (b)). -/
def seekChunks (d a : Nat) : List Nat → (pos : Nat) → State → Host.Outcome State Fault Refusal
  | [], _, s => .next s
  | n :: ns, pos, s =>
    match exec .applySeek (s.issued .applySeek
      { s.regs with
        srcAddr := BitVec.ofNat 32 (a + pos)
        dstAddr := BitVec.ofNat 32 (d + pos)
        length := BitVec.ofNat 32 n
        offsetLo := BitVec.ofNat 32 pos
        offsetHi := BitVec.ofNat 32 (pos >>> 32) }) with
    | .next t => seekChunks d a ns (pos + n) t
    | o => o

end Sys2Proof.Machine
end

