-- ==== Sys2Proof/Certificates/Slice0/Obligations.lean ====
section
/-! DEFINITION. The statements about the block, from the numbered rules of spec/. Where a statement says
`t = { s with … }` it is the command's frame: every element of the state that is not named keeps its
value, and where BUF is named the bytes that change are said through `memRead`. -/

open Sys2Proof Sys2Proof.Machine

/-! ### Reset, events and the step -/

/-- R48: the state after power-on reset, for every value of the OPEN parameters: words, variant, mask,
operand registers, CTRL, STATUS, phase and irq; each byte of BUF is the unknown power-on value of its
address. -/
def Obligations.ResetValues : Prop :=
  ∀ p : Params,
    (∀ k (h : k < 16), (State.resetOf p).w[k] = 0#32) ∧ (State.resetOf p).variant = .djb ∧
    (∀ j (h : j < 64), (State.resetOf p).mask[j] = 0#8) ∧
    (State.resetOf p).regs = ⟨0#32, 0#32, 0#32, 0#32, 0#32, 0#32, 0#32⟩ ∧
    (State.resetOf p).ctrlWord = 0#32 ∧ (State.resetOf p).statusWord = 0#32 ∧
    (State.resetOf p).engine = .idle ∧ (State.resetOf p).irq = false ∧
    (∀ a, (State.resetOf p).memRead a = Config.powerOnByte a)

/-- A step runs the decoded command: a busy engine whose latched word decodes to `i` runs exactly `i`
at its turn, which comes with the event `engineTurn` or when no event is left (R265,
R109). When the turn comes is the model's choice (log entry 3). -/
def Obligations.StepRunsLatchedCommand : Prop :=
  ∀ (s : State) (cmd : Word) (ops : Operands) (i : Instr),
    s.engine = .busy cmd ops → decode cmd = .ok i →
      (s.inbox = [] → step s = exec i s) ∧
      ∀ rest, s.inbox = .engineTurn :: rest → step s = exec i { s with inbox := rest }

/-- `withFetchWord` is the acceptance of a command word with the engine's turn next: the very next step
runs the command the word encodes, with the operand registers latched and DONE cleared (the model's
fetch, log entry 14). -/
def Obligations.FetchedWordRunsNext : Prop :=
  ∀ (s : State) (i : Instr),
    step (s.withFetchWord 32 (encode i).toNat) =
      exec i { s with
        engine := .busy (encode i) s.regs
        status := { s.status with done := false } }

/-- R249: an idle engine does nothing; with no event left the whole state stays as it is. -/
def Obligations.IdleEngineKeepsState : Prop :=
  ∀ s : State, s.engine = .idle →
    (s.inbox = [] → step s = .next s) ∧
    ∀ rest, s.inbox = .engineTurn :: rest → step s = .next { s with inbox := rest }

/-- The machine never refuses, and stops only on a bus event outside the block's windows: with no event
left, or a next event that is the block's own, whatever stands behind it, a step answers a next state
(R230), and it keeps every event to come inside the windows. A bus access outside both windows
is the model's fault (log entry 6). -/
def Obligations.StepStopsOnlyOutsideWindows : Prop :=
  ∀ s : State, (s.inbox = [] → ∃ t, step s = .next t) ∧
    (∀ e rest, s.inbox = e :: rest → e.inWindows s.params = true → ∃ t, step s = .next t) ∧
    (s.NoStray → ∀ t, step s = .next t → t.NoStray) ∧
    (∀ addr rest, s.inbox = .busRead addr :: rest → targetOf s.params addr = none →
      step s = .fault (.outsideWindows addr)) ∧
    ∀ addr v st rest, s.inbox = .busWrite addr v st :: rest → targetOf s.params addr = none →
      step s = .fault (.outsideWindows addr)

/-- The invariant holds after reset, whatever the parameters are. -/
def Obligations.InvariantAfterReset : Prop := ∀ p : Params, (State.resetOf p).Inv

/-- Every step keeps the invariant: BUF stays in canonical form and inside `BUF_SIZE` (R79, R82), a busy
engine's latch stays equal to the operand registers (R28, R44), and DONE is 0 while BUSY is 1 (R78). -/
def Obligations.StepKeepsInvariant : Prop :=
  ∀ s t : State, s.Inv → step s = .next t → t.Inv

/-! ### Encoding -/

/-- A few command words of the table of R105, written out bit by bit from R100, and what they decode
to; and words that are no command (V60.1). -/
def Obligations.SpecWordsDecode : Prop :=
  decode 0x00000000#32 = .ok .nop ∧ decode 0x00000001#32 = .ok (.init .djb) ∧
  decode 0x00000101#32 = .ok (.init .rfc7539) ∧ decode 0x00000002#32 = .ok .setKey ∧
  decode 0x00000003#32 = .ok .setNonce ∧ decode 0x00000004#32 = .ok .setSeq ∧
  decode 0x00000005#32 = .ok .getSeq ∧ decode 0x00000006#32 = .ok .incSeq ∧
  decode 0x00000007#32 = .ok .genMask ∧ decode 0x00000008#32 = .ok .permuteBuf ∧
  decode 0x00000010#32 = .ok .apply ∧ decode 0x00000011#32 = .ok .applyIp ∧
  decode 0x00000012#32 = .ok .applySeek ∧ decode 0x00000013#32 = .ok .applySeekIp ∧
  decode 0x00000009#32 = .error .illegalOpcode ∧ decode 0x000001FF#32 = .error .illegalOpcode ∧
  decode 0x00000107#32 = .error .reservedBits ∧ decode 0x80000010#32 = .error .reservedBits

/-- Decode and encode agree, in both directions and on all 2^32 words: a word decodes to a command
exactly when it is that command's word, so that the 13 commands have exactly the 14 words of R105. -/
def Obligations.DecodeIffEncoded : Prop :=
  (∀ (c : Word) (i : Instr), decode c = .ok i ↔ c = encode i) ∧
  ∀ c : Word, (∃ i, decode c = .ok i) ↔
    c ∈ [0x00000000#32, 0x00000001#32, 0x00000101#32, 0x00000002#32, 0x00000003#32, 0x00000004#32,
      0x00000005#32, 0x00000006#32, 0x00000007#32, 0x00000008#32, 0x00000010#32, 0x00000011#32,
      0x00000012#32, 0x00000013#32]

/-- The decoding order of R109: (1) an OP that is not legal, (2) else reserved bits, (3) else the
command named by OP. -/
def Obligations.DecodingOrder : Prop :=
  ∀ c : Word,
    (c.extractLsb' 0 8 ∉ legalOps → decode c = .error .illegalOpcode) ∧
    (c.extractLsb' 0 8 ∈ legalOps →
      (c.extractLsb' 9 23 ≠ 0#23 ∨ (c.getLsbD 8 = true ∧ c.extractLsb' 0 8 ≠ 0x01#8)) →
        decode c = .error .reservedBits) ∧
    (c.extractLsb' 0 8 ∈ legalOps → c.extractLsb' 9 23 = 0#23 →
      (c.getLsbD 8 = true → c.extractLsb' 0 8 = 0x01#8) →
        ∃ i, decode c = .ok i ∧ opcodeOf i = c.extractLsb' 0 8)

/-! ### Errors and completion -/

/-- R106, R107: an illegal or reserved command word completes with cause 1 or 2 and ILLEGAL, and has no
other effect. That such a word is accepted, leaves the engine busy and completes at the engine's turn
is the model's reading of "at once" (log entry 9), and the turn comes with the event `engineTurn` or when
no event is left (log entry 3). -/
def Obligations.RejectedWordOnlyReports : Prop :=
  ∀ (s : State) (cmd : Word) (ops : Operands), s.engine = .busy cmd ops → s.TurnIsNext →
    (cmd.extractLsb' 0 8 ∉ legalOps →
      step s = .next { s with
        inbox := s.inbox.tail
        engine := .idle
        status := { s.status with done := true, illegal := true, cause := .illegalOpcode } }) ∧
    (cmd.extractLsb' 0 8 ∈ legalOps →
      (cmd.extractLsb' 9 23 ≠ 0#23 ∨ (cmd.getLsbD 8 = true ∧ cmd.extractLsb' 0 8 ≠ 0x01#8)) →
      step s = .next { s with
        inbox := s.inbox.tail
        engine := .idle
        status := { s.status with done := true, illegal := true, cause := .reservedBits } })

/-- R235: completion. Every command answers a next state with the engine idle and DONE set, OVR kept, and
a cause of 0, 3 or 4; a busy engine's turn, whatever the word, ends so with any of the five causes,
ILLEGAL set on causes 1 and 2 and MEMERR on causes 3 and 4, both sticky. -/
def Obligations.EveryCommandCompletes : Prop :=
  (∀ (i : Instr) (s : State), ∃ t, exec i s = .next t ∧ t.engine = .idle ∧ t.status.done = true ∧
    t.status.illegal = s.status.illegal ∧ t.status.ovr = s.status.ovr ∧
    (t.status.cause = .ok ∧ t.status.memerr = s.status.memerr ∨
      (t.status.cause = .srcRange ∨ t.status.cause = .dstRange) ∧ t.status.memerr = true)) ∧
  ∀ (s : State) (cmd : Word) (ops : Operands), s.engine = .busy cmd ops →
    ∃ t, s.engineTurn = .next t ∧ t.engine = .idle ∧ t.status.done = true ∧
      t.status.ovr = s.status.ovr ∧
      (t.status.illegal = true ↔ s.status.illegal = true ∨
        t.status.cause.code = 1#4 ∨ t.status.cause.code = 2#4) ∧
      (t.status.memerr = true ↔ s.status.memerr = true ∨
        t.status.cause.code = 3#4 ∨ t.status.cause.code = 4#4)

/-- R236: errors are precise. After a command that reports a cause other than 0 the state is exactly
the state before it, plus STATUS (DONE, MEMERR, CAUSE; the engine idle). -/
def Obligations.ErrorsArePrecise : Prop :=
  ∀ (i : Instr) (s t : State), exec i s = .next t → t.status.cause ≠ .ok →
    t = { s with
      engine := .idle
      status := { s.status with done := true, memerr := true, cause := t.status.cause } }

/-- The range checks of R234 with the priority of R237: which cause each command reports, for every
operand; commands that access no BUF byte always report 0. A zero-byte range never fails. -/
def Obligations.CauseOfEveryCommand : Prop :=
  ∀ (i : Instr) (s t : State), exec i s = .next t →
    let o := s.operands
    let fits := fun (base : Word) (n : Nat) => n = 0 ∨ base.toNat + n ≤ s.params.bufSize
    let nonceCap := if s.variant = .djb then 8 else 12
    match i with
    | .nop | .init _ | .setSeq | .getSeq | .incSeq | .genMask => t.status.cause = .ok
    | .setKey =>
      (fits o.srcAddr (min o.length.toNat 32) → t.status.cause = .ok) ∧
      (¬ fits o.srcAddr (min o.length.toNat 32) → t.status.cause = .srcRange)
    | .setNonce =>
      (fits o.srcAddr (min o.length.toNat nonceCap) → t.status.cause = .ok) ∧
      (¬ fits o.srcAddr (min o.length.toNat nonceCap) → t.status.cause = .srcRange)
    | .permuteBuf =>
      (fits o.srcAddr 64 → fits o.dstAddr 64 → t.status.cause = .ok) ∧
      (¬ fits o.srcAddr 64 → t.status.cause = .srcRange) ∧
      (fits o.srcAddr 64 → ¬ fits o.dstAddr 64 → t.status.cause = .dstRange)
    | .apply =>
      (o.length = 0#32 ∨ o.srcAddr = 0#32 → t.status.cause = .ok) ∧
      (o.length ≠ 0#32 → o.srcAddr ≠ 0#32 →
        (fits o.srcAddr o.length.toNat → fits o.dstAddr o.length.toNat → t.status.cause = .ok) ∧
        (¬ fits o.srcAddr o.length.toNat → t.status.cause = .srcRange) ∧
        (fits o.srcAddr o.length.toNat → ¬ fits o.dstAddr o.length.toNat →
          t.status.cause = .dstRange))
    | .applyIp =>
      (o.length = 0#32 ∨ o.srcAddr = 0#32 → t.status.cause = .ok) ∧
      (o.length ≠ 0#32 → o.srcAddr ≠ 0#32 →
        (fits o.srcAddr o.length.toNat → t.status.cause = .ok) ∧
        (¬ fits o.srcAddr o.length.toNat → t.status.cause = .srcRange))
    | .applySeek =>
      (fits o.srcAddr o.length.toNat → fits o.dstAddr o.length.toNat → t.status.cause = .ok) ∧
      (¬ fits o.srcAddr o.length.toNat → t.status.cause = .srcRange) ∧
      (fits o.srcAddr o.length.toNat → ¬ fits o.dstAddr o.length.toNat →
        t.status.cause = .dstRange)
    | .applySeekIp =>
      (fits o.srcAddr o.length.toNat → t.status.cause = .ok) ∧
      (¬ fits o.srcAddr o.length.toNat → t.status.cause = .srcRange)

/-- R36: CAUSE is written at a completion and at reset (to 0), and at no other time; its code is
always below 5. -/
def Obligations.CauseWrittenOnlyAtCompletion : Prop :=
  (∀ s t : State, step s = .next t → t.status.cause ≠ s.status.cause →
    (∃ cmd ops, s.engine = .busy cmd ops ∧ t.engine = .idle ∧ t.status.done = true) ∨
    (∃ rest, s.inbox = .reset :: rest ∧ t.status.cause.code = 0#4)) ∧
  ∀ c : Cause, c.code.toNat < 5

/-! ### The state manager -/

/-- R190: NOP changes no state other than STATUS.DONE and STATUS.CAUSE (and the engine is idle). -/
def Obligations.NopOnlyCompletes : Prop :=
  ∀ s : State, exec .nop s = .next { s with
    engine := .idle
    status := { s.status with done := true, cause := .ok } }

/-- R150: INIT zeroes the state words and the mask, sets VARIANT, and completes; ILLEGAL, MEMERR, OVR,
WRAP, the operand registers, CTRL and BUF are unchanged. -/
def Obligations.InitBuildsZeroState : Prop :=
  ∀ (v : Variant) (s : State), ∃ t, exec (.init v) s = .next t ∧
    (∀ k (h : k < 16), t.w[k] = 0#32) ∧ (∀ j (h : j < 64), t.mask[j] = 0#8) ∧ t.variant = v ∧
    t = { s with
      w := t.w, mask := t.mask, variant := t.variant, engine := .idle
      status := { s.status with done := true, cause := .ok } }

/-- R111: SET_KEY in DJB with LENGTH ≤ 16: SIGMA16, and the key bytes, zero-padded to 16, packed
little-endian into W[4..7] and again into W[8..11]. Only W[0..11] change. -/
def Obligations.SetKeyShortPacking : Prop :=
  ∀ s : State, s.variant = .djb → s.operands.length.toNat ≤ 16 →
    (s.operands.length = 0#32 ∨
      s.operands.srcAddr.toNat + s.operands.length.toNat ≤ s.params.bufSize) →
    ∃ t, exec .setKey s = .next t ∧
      t.w[0] = 0x61707865#32 ∧ t.w[1] = 0x3120646e#32 ∧ t.w[2] = 0x79622d36#32 ∧
      t.w[3] = 0x6b206574#32 ∧
      (∀ i j, (h : i < 4) → j < 4 →
        byteOf (t.w[4 + i]'(by omega)) j =
          (if 4 * i + j < s.operands.length.toNat
            then s.memRead (s.operands.srcAddr.toNat + (4 * i + j)) else 0#8) ∧
        t.w[8 + i]'(by omega) = t.w[4 + i]'(by omega)) ∧
      (∀ k (h : k < 16), 12 ≤ k → t.w[k] = s.w[k]) ∧
      t = { s with
        w := t.w, engine := .idle
        status := { s.status with done := true, cause := .ok } }

/-- R112, R113: SET_KEY in DJB with LENGTH ≥ 17, and in RFC7539 with any LENGTH: SIGMA32, and the first
32 key bytes, zero-padded to 32, packed little-endian into W[4..11]. Only W[0..11] change. -/
def Obligations.SetKeyLongPacking : Prop :=
  ∀ s : State, (s.variant = .djb → 17 ≤ s.operands.length.toNat) →
    (s.operands.length = 0#32 ∨
      s.operands.srcAddr.toNat + min s.operands.length.toNat 32 ≤ s.params.bufSize) →
    ∃ t, exec .setKey s = .next t ∧
      t.w[0] = 0x61707865#32 ∧ t.w[1] = 0x3320646e#32 ∧ t.w[2] = 0x79622d32#32 ∧
      t.w[3] = 0x6b206574#32 ∧
      (∀ i j, (h : i < 8) → j < 4 →
        byteOf (t.w[4 + i]'(by omega)) j =
          (if 4 * i + j < s.operands.length.toNat
            then s.memRead (s.operands.srcAddr.toNat + (4 * i + j)) else 0#8)) ∧
      (∀ k (h : k < 16), 12 ≤ k → t.w[k] = s.w[k]) ∧
      t = { s with
        w := t.w, engine := .idle
        status := { s.status with done := true, cause := .ok } }

/-- R114, R115: SET_NONCE packs the first 8 (DJB) or 12 (RFC7539) nonce bytes, zero-padded,
little-endian into W[14..15] or W[13..15]. No other word changes, so the sequence and key stay. -/
def Obligations.SetNoncePacking : Prop :=
  ∀ s : State,
    let cap := if s.variant = .djb then 8 else 12
    let first := if s.variant = .djb then 14 else 13
    (s.operands.length = 0#32 ∨
      s.operands.srcAddr.toNat + min s.operands.length.toNat cap ≤ s.params.bufSize) →
    ∃ t, exec .setNonce s = .next t ∧
      (∀ k j, (h : k < 16) → first ≤ k → j < 4 →
        byteOf t.w[k] j =
          (if 4 * (k - first) + j < s.operands.length.toNat
            then s.memRead (s.operands.srcAddr.toNat + (4 * (k - first) + j)) else 0#8)) ∧
      (∀ k (h : k < 16), k < first → t.w[k] = s.w[k]) ∧
      t = { s with
        w := t.w, engine := .idle
        status := { s.status with done := true, cause := .ok } }

/-- R165 with R161: SET_SEQ. DJB takes all 64 bits of SEQ_HI:SEQ_LO and never sets WRAP; RFC7539 keeps
only SEQ_LO, leaves W[13] alone and sets WRAP when SEQ_HI ≠ 0. -/
def Obligations.SetSeqLoadsSequence : Prop :=
  ∀ s : State, ∃ t, exec .setSeq s = .next t ∧
    t.w[12] = s.operands.seqLo ∧
    (s.variant = .djb → t.w[13] = s.operands.seqHi ∧ t.status.wrap = s.status.wrap) ∧
    (s.variant = .rfc7539 → t.w[13] = s.w[13] ∧
      t.status.wrap = (s.status.wrap || decide (s.operands.seqHi ≠ 0#32))) ∧
    (∀ k (h : k < 16), k ≠ 12 → k ≠ 13 → t.w[k] = s.w[k]) ∧
    t = { s with
      w := t.w, engine := .idle
      status := { s.status with done := true, cause := .ok, wrap := t.status.wrap } }

/-- R166: GET_SEQ writes SEQ_LO and SEQ_HI, SEQ_HI being 0 in RFC7539 whatever W[13] holds, and
nothing else. -/
def Obligations.GetSeqReadsSequence : Prop :=
  ∀ s : State, ∃ t, exec .getSeq s = .next t ∧
    t.regs.seqLo = s.w[12] ∧
    (s.variant = .djb → t.regs.seqHi = s.w[13]) ∧ (s.variant = .rfc7539 → t.regs.seqHi = 0#32) ∧
    t = { s with
      regs := { s.regs with seqLo := t.regs.seqLo, seqHi := t.regs.seqHi }
      engine := .idle
      status := { s.status with done := true, cause := .ok } }

/-- R162, R167: INC_SEQ. DJB adds 1 mod 2^64 with the carry from W[12] into W[13]; RFC7539 adds 1 mod
2^32 to W[12] and never touches W[13]. WRAP is set when the sequence becomes 0. -/
def Obligations.IncSeqAddsOne : Prop :=
  ∀ s : State, ∃ t, exec .incSeq s = .next t ∧
    (s.variant = .djb → (t.w[13] ++ t.w[12] : BitVec 64) = (s.w[13] ++ s.w[12] : BitVec 64) + 1#64 ∧
      t.status.wrap = (s.status.wrap || decide ((t.w[13] ++ t.w[12] : BitVec 64) = 0#64))) ∧
    (s.variant = .rfc7539 → t.w[12] = s.w[12] + 1#32 ∧ t.w[13] = s.w[13] ∧
      t.status.wrap = (s.status.wrap || decide (t.w[12] = 0#32))) ∧
    (∀ k (h : k < 16), k ≠ 12 → k ≠ 13 → t.w[k] = s.w[k]) ∧
    t = { s with
      w := t.w, engine := .idle
      status := { s.status with done := true, cause := .ok, wrap := t.status.wrap } }

/-- R164: the sequence changes only through the commands that use SetSeq or IncSeq and through INIT (to
0); the nonce words only through SET_NONCE and INIT. -/
def Obligations.SequenceAndNonceWriters : Prop :=
  ∀ (i : Instr) (s t : State), exec i s = .next t →
    (seqOf t.variant t.w ≠ seqOf s.variant s.w →
      (i = .setSeq ∨ i = .incSeq ∨ i = .apply ∨ i = .applyIp ∨ i = .applySeek ∨ i = .applySeekIp) ∨
      ∃ v, i = .init v ∧ seqOf t.variant t.w = 0) ∧
    (∀ k (h : k < 16), 13 ≤ k → (k = 13 → s.variant = .rfc7539) → t.w[k] ≠ s.w[k] →
      i = .setNonce ∨ ∃ v, i = .init v)

/-- R163 (who may set it): WRAP is sticky, and a step sets it only in the engine's turn, which leaves the
engine idle, of a command that uses SetSeq or IncSeq; no host access sets it. When the turn comes is the
model's choice (log entry 3). -/
def Obligations.WrapSetOnlyBySequenceCommands : Prop :=
  ∀ s t : State, step s = .next t → t.status.wrap = true → s.status.wrap = false →
    s.TurnIsNext ∧ t.engine = .idle ∧ ∃ cmd ops i, s.engine = .busy cmd ops ∧ decode cmd = .ok i ∧
      (i = .setSeq ∨ i = .incSeq ∨ i = .apply ∨ i = .applyIp ∨ i = .applySeek ∨ i = .applySeekIp)

/-- R22, R24 (who may write them): a step changes a state word only in the engine's turn of INIT,
SET_KEY, SET_NONCE, SET_SEQ, INC_SEQ or an apply command, or by reset; it changes VARIANT only in the
engine's turn of INIT or by reset, and then every state word and mask byte is 0. No host access changes
either. When the turn comes is the model's choice (log entry 3). -/
def Obligations.StateWordWriters : Prop :=
  ∀ s t : State, step s = .next t →
    (t.w ≠ s.w →
      (∃ rest, s.inbox = .reset :: rest) ∨
      s.TurnIsNext ∧ ∃ cmd ops i, s.engine = .busy cmd ops ∧ decode cmd = .ok i ∧ i ≠ .nop ∧
        i ≠ .getSeq ∧ i ≠ .genMask ∧ i ≠ .permuteBuf) ∧
    (t.variant ≠ s.variant →
      ((∃ rest, s.inbox = .reset :: rest) ∨
        s.TurnIsNext ∧ ∃ cmd ops v, s.engine = .busy cmd ops ∧ decode cmd = .ok (.init v)) ∧
      (∀ k (h : k < 16), t.w[k] = 0#32) ∧ ∀ j (h : j < 64), t.mask[j] = 0#8)

/-- R50: what INIT, SET_KEY, SET_NONCE and SET_SEQ build does not depend on what the words held before:
two blocks with the same BUF bytes and sizes end with the same words and variant. -/
def Obligations.RebuiltStateIsACopy : Prop :=
  ∀ (v : Variant) (key nonce seq : Operands) (s s' : State),
    s'.params = s.params → (∀ a, s'.memRead a = s.memRead a) →
    ∃ t1 t2 t3 t4 u1 u2 u3 u4,
      exec (.init v) (s.issued (.init v) key) = .next t1 ∧
      exec .setKey (t1.issued .setKey key) = .next t2 ∧
      exec .setNonce (t2.issued .setNonce nonce) = .next t3 ∧
      exec .setSeq (t3.issued .setSeq seq) = .next t4 ∧
      exec (.init v) (s'.issued (.init v) key) = .next u1 ∧
      exec .setKey (u1.issued .setKey key) = .next u2 ∧
      exec .setNonce (u2.issued .setNonce nonce) = .next u3 ∧
      exec .setSeq (u3.issued .setSeq seq) = .next u4 ∧
      u4.w = t4.w ∧ u4.variant = t4.variant ∧ u4.variant = v

/-! ### The permutation -/

/-- R130: the quarter round on four distinct words: the four lines, and no other word changes. -/
def Obligations.QuarterRoundLines : Prop :=
  ∀ (x : Words) (a b c d : Fin 16), a ≠ b → a ≠ c → a ≠ d → b ≠ c → b ≠ d → c ≠ d →
    let a1 := x[a] + x[b]
    let d1 := (x[d] ^^^ a1).rotateLeft 16
    let c1 := x[c] + d1
    let b1 := (x[b] ^^^ c1).rotateLeft 12
    let a2 := a1 + b1
    let d2 := (d1 ^^^ a2).rotateLeft 8
    let c2 := c1 + d2
    let b2 := (b1 ^^^ c2).rotateLeft 7
    (quarterRound x a b c d)[a] = a2 ∧ (quarterRound x a b c d)[b] = b2 ∧
    (quarterRound x a b c d)[c] = c2 ∧ (quarterRound x a b c d)[d] = d2 ∧
    ∀ k : Fin 16, k ≠ a → k ≠ b → k ≠ c → k ≠ d → (quarterRound x a b c d)[k] = x[k]

/-- R139: the four quarter rounds of one pass act on disjoint words: any order of them gives the same
result as the pass. -/
def Obligations.PassOrderIsFree : Prop :=
  (∀ (l : List (Fin 16 × Fin 16 × Fin 16 × Fin 16)) (x : Words),
    l.Perm [(0, 4, 8, 12), (1, 5, 9, 13), (2, 6, 10, 14), (3, 7, 11, 15)] →
      l.foldl (fun y q => quarterRound y q.1 q.2.1 q.2.2.1 q.2.2.2) x = columnPass x) ∧
  ∀ (l : List (Fin 16 × Fin 16 × Fin 16 × Fin 16)) (x : Words),
    l.Perm [(0, 5, 10, 15), (1, 6, 11, 12), (2, 7, 8, 13), (3, 4, 9, 14)] →
      l.foldl (fun y q => quarterRound y q.1 q.2.1 q.2.2.1 q.2.2.2) x = diagonalPass x

/-- R136 with R134 and R138: GEN_MASK. The register MASKk then reads word k of 10 double rounds of the
state words plus the state word itself; state words, sequence and everything else are unchanged. -/
def Obligations.GenMaskPermutesState : Prop :=
  ∀ s : State, ∃ t, exec .genMask s = .next t ∧
    (∀ k : Fin 16, t.regRead (.mask k) = (doubleRounds 10 s.w)[k] + s.w[k]) ∧
    (∀ i, i < 64 → maskByte t.mask i =
      byteOf ((doubleRounds 10 s.w)[i / 4]! + s.w[i / 4]!) (i % 4)) ∧
    t = { s with
      mask := t.mask, engine := .idle
      status := { s.status with done := true, cause := .ok } }

/-- R137: PERMUTE_BUF, for every overlap of the two ranges: the mask is the permutation of the original
64 source bytes, the 64 destination bytes are the mask, every other byte and all else are unchanged.
Where the source bytes, or else the destination bytes, do not fit in BUF it reports cause 3, or 4, and
MEMERR, and nothing else changes. -/
def Obligations.PermuteBufWritesMask : Prop :=
  ∀ s : State,
    let a := s.operands.srcAddr.toNat
    let d := s.operands.dstAddr.toNat
    let failed := fun (c : Cause) => ({ s with
      engine := .idle
      status := { s.status with done := true, memerr := true, cause := c } } : State)
    (a + 64 ≤ s.params.bufSize → d + 64 ≤ s.params.bufSize →
      ∃ t, exec .permuteBuf s = .next t ∧
        t.mask = permute (Vector.ofFn fun k : Fin 16 =>
          s.memRead (a + 4 * k + 3) ++ s.memRead (a + 4 * k + 2) ++ s.memRead (a + 4 * k + 1) ++
            s.memRead (a + 4 * k)) ∧
        (∀ j (h : j < 64), t.memRead (d + j) = t.mask[j]) ∧
        (∀ b, ¬ (d ≤ b ∧ b < d + 64) → t.memRead b = s.memRead b) ∧
        t = { s with
          mask := t.mask, buf := t.buf, engine := .idle
          status := { s.status with done := true, cause := .ok } }) ∧
    (¬ a + 64 ≤ s.params.bufSize → exec .permuteBuf s = .next (failed .srcRange)) ∧
    (a + 64 ≤ s.params.bufSize → ¬ d + 64 ≤ s.params.bufSize →
      exec .permuteBuf s = .next (failed .dstRange))

/-! ### The stream applier -/

/-- R191: the keystream depends on the state words only through the constant, key and nonce words. -/
def Obligations.KeystreamIgnoresSequence : Prop :=
  ∀ (v : Variant) (w w' : Words),
    (∀ k (h : k < 16), k ≠ 12 → (k = 13 → v = .rfc7539) → w'[k] = w[k]) →
    ∀ p, keystreamByte v w' p = keystreamByte v w p

/-- R198: APPLY and APPLY_IP with LENGTH = 0 or SRC_ADDR = 0 are no-ops that complete with cause 0. -/
def Obligations.NullApplyIsNoOp : Prop :=
  ∀ s : State, s.operands.length = 0#32 ∨ s.operands.srcAddr = 0#32 →
    exec .apply s = .next { s with
      engine := .idle
      status := { s.status with done := true, cause := .ok } } ∧
    exec .applyIp s = .next { s with
      engine := .idle
      status := { s.status with done := true, cause := .ok } }

/-- R197 with R193 and R208: APPLY and APPLY_IP with L > 0 and a non-null source, for every overlap of
the ranges: source byte i is combined with byte i % 64 of block s0 + i / 64, byte by byte in order; the
sequence is (s0 + ceil(L / 64)) mod 2^CW; the mask is that of the last block generated; WRAP is set when
the sequence passes its last value. Everything else, every other byte of BUF too, is unchanged. -/
def Obligations.SequentialApplyStreams : Prop :=
  ∀ s : State,
    let o := s.operands
    let L := o.length.toNat
    let s0 := seqOf s.variant s.w
    let CW := if s.variant = .djb then 64 else 32
    let after := fun (d : Nat) (t : State) =>
      Streamed d o.srcAddr.toNat L
        (fun i => maskByte (keystreamBlock s.variant s.w (s0 + i / 64)) (i % 64)) s t ∧
      seqOf t.variant t.w = (s0 + (L + 63) / 64) % 2 ^ CW ∧
      (∀ k (h : k < 16), k ≠ 12 → (k = 13 → s.variant = .rfc7539) → t.w[k] = s.w[k]) ∧
      t.mask = keystreamBlock s.variant s.w (s0 + (L + 63) / 64 - 1) ∧
      t = { s with
        w := t.w, mask := t.mask, buf := t.buf, engine := .idle
        status := { s.status with
          done := true, cause := .ok
          wrap := s.status.wrap || decide (2 ^ CW ≤ s0 + (L + 63) / 64) } }
    L ≠ 0 → o.srcAddr ≠ 0#32 → o.srcAddr.toNat + L ≤ s.params.bufSize →
      (o.dstAddr.toNat + L ≤ s.params.bufSize →
        ∃ t, exec .apply s = .next t ∧ after o.dstAddr.toNat t) ∧
      ∃ t, exec .applyIp s = .next t ∧ after o.srcAddr.toNat t

/-- R202 with R193, R203 and R207: APPLY_SEEK and APPLY_SEEK_IP, for every overlap, every offset and
L = 0 too: source byte i is combined with keystream byte off + i; the final sequence is the block of the
last byte (of the offset when L = 0) mod 2^CW and MASK is that block; WRAP is set when that block does
not fit in CW bits. The sequence before does not matter. Everything else is unchanged. -/
def Obligations.SeekedApplyStreams : Prop :=
  ∀ s : State,
    let o := s.operands
    let L := o.length.toNat
    let off := (o.offsetHi ++ o.offsetLo).toNat
    let last := if L = 0 then off / 64 else (off + L - 1) / 64
    let CW := if s.variant = .djb then 64 else 32
    let after := fun (d : Nat) (t : State) =>
      Streamed d o.srcAddr.toNat L (fun i => keystreamByte s.variant s.w (off + i)) s t ∧
      seqOf t.variant t.w = last % 2 ^ CW ∧
      (∀ k (h : k < 16), k ≠ 12 → (k = 13 → s.variant = .rfc7539) → t.w[k] = s.w[k]) ∧
      t.mask = keystreamBlock s.variant s.w last ∧
      t = { s with
        w := t.w, mask := t.mask, buf := t.buf, engine := .idle
        status := { s.status with
          done := true, cause := .ok, wrap := s.status.wrap || decide (2 ^ CW ≤ last) } }
    (L = 0 ∨ o.srcAddr.toNat + L ≤ s.params.bufSize) →
      ((L = 0 ∨ o.dstAddr.toNat + L ≤ s.params.bufSize) →
        ∃ t, exec .applySeek s = .next t ∧ after o.dstAddr.toNat t) ∧
      ∃ t, exec .applySeekIp s = .next t ∧ after o.srcAddr.toNat t

/-- R206: overlapping ranges, for APPLY. With the destination behind the source, or the ranges apart,
the output is the plain XOR of the original bytes; with the destination ahead, a source byte at
s + i = d + j with j < i is read as the command has written it. -/
def Obligations.OverlapFollowsByteOrder : Prop :=
  ∀ s t : State,
    let a := s.operands.srcAddr.toNat
    let d := s.operands.dstAddr.toNat
    let L := s.operands.length.toNat
    let ks := fun i => keystreamByte s.variant s.w (64 * seqOf s.variant s.w + i)
    L ≠ 0 → s.operands.srcAddr ≠ 0#32 → a + L ≤ s.params.bufSize → d + L ≤ s.params.bufSize →
    exec .apply s = .next t →
      (d ≤ a ∨ a + L ≤ d → ∀ i, i < L → t.memRead (d + i) = s.memRead (a + i) ^^^ ks i) ∧
      (a < d → ∀ i j, i < L → j < i → a + i = d + j →
        t.memRead (d + i) = t.memRead (d + j) ^^^ ks i)

/-- R204, split/seek equivalence: for every message of N bytes and every partition into chunks, one
APPLY from sequence 0 and one APPLY_SEEK for each chunk at its offset leave the same bytes in all of
BUF, whatever the sequence was before the chunks; and where the destination is not ahead of the source
in the same range, each output byte p is M[p] ^ KS(W, p). -/
def Obligations.SplitSeekEquivalence : Prop :=
  ∀ (s : State) (a d : Nat) (chunks : List Nat) (q : Nat) (o : Operands),
    0 < a → a + chunks.sum ≤ s.params.bufSize → d + chunks.sum ≤ s.params.bufSize →
    0 < chunks.sum → chunks.sum < 2 ^ 32 → seqOf s.variant s.w = 0 →
    o.srcAddr = BitVec.ofNat 32 a → o.dstAddr = BitVec.ofNat 32 d →
    o.length = BitVec.ofNat 32 chunks.sum →
    ∃ t u, exec .apply (s.issued .apply o) = .next t ∧
      seekChunks d a chunks 0 { s with w := withSeq s.variant s.w q } = .next u ∧
      (∀ b, u.memRead b = t.memRead b) ∧
      (d ≤ a ∨ a + chunks.sum ≤ d → ∀ p, p < chunks.sum →
        u.memRead (d + p) = s.memRead (a + p) ^^^ keystreamByte s.variant s.w p)

/-- R205, round trip: any apply form twice over the same bytes, from the same starting sequence or at
the same offset each time, gives back the original bytes, when source and destination do not partially
overlap. In place, every byte of BUF is as before; from a to d and then from d to e, the bytes at e are
the bytes that were at a. Address 0 and a length of 0 are covered: only APPLY, which does nothing where
its source is the null address (R198), needs two sources that are not null; the seeked forms have no
such test (R200). -/
def Obligations.RoundTrip : Prop :=
  ∀ s : State,
    let o := s.operands
    let a := o.srcAddr.toNat
    let d := o.dstAddr.toNat
    let L := o.length.toNat
    let fits := fun (x : Nat) => L = 0 ∨ x + L ≤ s.params.bufSize
    let apart := fun (x y : Nat) => x = y ∨ x + L ≤ y ∨ y + L ≤ x
    let rewound := fun (t : State) => ({ t with w := withSeq t.variant t.w (seqOf s.variant s.w) } : State)
    let back := fun (e : Word) => ({ o with srcAddr := o.dstAddr, dstAddr := e } : Operands)
    fits a →
      (∃ t u, exec .applyIp s = .next t ∧ exec .applyIp ((rewound t).issued .applyIp o) = .next u ∧
        ∀ b, u.memRead b = s.memRead b) ∧
      (∃ t u, exec .applySeekIp s = .next t ∧ exec .applySeekIp (t.issued .applySeekIp o) = .next u ∧
        ∀ b, u.memRead b = s.memRead b) ∧
      ∀ e : Word, fits d → fits e.toNat → apart d a → apart e.toNat d →
        (o.srcAddr ≠ 0#32 → o.dstAddr ≠ 0#32 →
          ∃ t u, exec .apply s = .next t ∧
            exec .apply ((rewound t).issued .apply (back e)) = .next u ∧
            ∀ i, i < L → u.memRead (e.toNat + i) = s.memRead (a + i)) ∧
        ∃ t u, exec .applySeek s = .next t ∧
          exec .applySeek (t.issued .applySeek (back e)) = .next u ∧
          ∀ i, i < L → u.memRead (e.toNat + i) = s.memRead (a + i)

/-! ### The host port -/

/-- R70, R71, R73: which window and register a platform address reaches, when the windows do not overlap
(R81): offset o of the register window acts on the register at o & 0xFC, and byte address a of the BUF
window on BUF. -/
def Obligations.WindowsReachRegistersAndBuf : Prop :=
  ∀ p : Params, p.wf →
    (∀ o, o < 256 → targetOf p (p.regBase + o) = some (.reg o)) ∧
    (∀ o, o < 256 → regAt o = regAt (o / 4 * 4)) ∧
    (∀ a, a < p.bufSize → targetOf p (p.bufBase + a) = some (.buf a)) ∧
    (∀ k : Fin 16, regAt (0x40 + 4 * k.val) = .word k ∧ regAt (0x80 + 4 * k.val) = .mask k) ∧
    (∀ o, o < 256 → (0x2C ≤ o ∧ o < 0x40) ∨ 0xC0 ≤ o → regAt o = .reserved) ∧
    [0x00, 0x04, 0x08, 0x0C, 0x10, 0x14, 0x18, 0x1C, 0x20, 0x24, 0x28].map regAt =
      [.id, .ctrl, .status, .cmd, .srcAddr, .dstAddr, .length, .offsetLo, .offsetHi, .seqLo, .seqHi]

/-- R28: an operand register reads back exactly the last value written while the engine is idle, and
the write changes nothing else: every other register reads as before and BUF keeps its bytes. -/
def Obligations.OperandRegisterReadsBack : Prop :=
  ∀ (s : State) (r : Reg) (v : Word), s.engine = .idle →
    r ∈ [.srcAddr, .dstAddr, .length, .offsetLo, .offsetHi, .seqLo, .seqHi] →
      (s.regWrite r v).regRead r = v ∧
      (∀ r', r' ≠ r → (s.regWrite r v).regRead r' = s.regRead r') ∧
      s.regWrite r v = { s with regs := (s.regWrite r v).regs }

/-- R238: a host write of CMD, an operand register or BUF while the engine is busy is dropped and sets
OVR; nothing else changes. A BUF write counts as a write with every strobe 0 too, which is the model's
reading (log entry 12). -/
def Obligations.BusyWriteSetsOverrun : Prop :=
  ∀ (s : State) (cmd : Word) (ops : Operands), s.engine = .busy cmd ops →
    (∀ r v, r ∈ [.cmd, .srcAddr, .dstAddr, .length, .offsetLo, .offsetHi, .seqLo, .seqHi] →
      s.regWrite r v = { s with status := { s.status with ovr := true } }) ∧
    ∀ a v st, s.bufWrite a v st = { s with status := { s.status with ovr := true } }

/-- R267, R31, R32, R44: while busy WORDk, MASKk, SEQ_LO, SEQ_HI and the BUF window read 0; while idle they
read the state words, the mask words, the registers and the bus word of the four BUF bytes. In both
phases the operand registers other than SEQ_LO and SEQ_HI read their values, and ID, CTRL, CMD and
reserved offsets read as when idle; so does STATUS but for its BUSY bit. -/
def Obligations.ResultsReadZeroWhileBusy : Prop :=
  (∀ (s : State) (cmd : Word) (ops : Operands), s.engine = .busy cmd ops →
    (∀ k, s.regRead (.word k) = 0#32 ∧ s.regRead (.mask k) = 0#32) ∧
    s.regRead .seqLo = 0#32 ∧ s.regRead .seqHi = 0#32 ∧ (∀ a, s.bufRead a = 0#32) ∧
    (∀ r ∈ [Reg.id, .ctrl, .cmd, .reserved],
      s.regRead r = ({ s with engine := .idle } : State).regRead r) ∧
    s.regRead .status = ({ s with engine := .idle } : State).regRead .status ||| 1#32) ∧
  (∀ s : State, s.engine = .idle →
    (∀ k : Fin 16, s.regRead (.word k) = s.w[k] ∧
      ∀ j, j < 4 → byteOf (s.regRead (.mask k)) j = maskByte s.mask (4 * k.val + j)) ∧
    s.regRead .seqLo = s.regs.seqLo ∧ s.regRead .seqHi = s.regs.seqHi ∧
    ∀ a j, j < 4 → byteOf (s.bufRead a) j = s.memRead (a / 4 * 4 + j)) ∧
  ∀ s : State, s.regRead .srcAddr = s.regs.srcAddr ∧ s.regRead .dstAddr = s.regs.dstAddr ∧
    s.regRead .length = s.regs.length ∧ s.regRead .offsetLo = s.regs.offsetLo ∧
    s.regRead .offsetHi = s.regs.offsetHi

/-- R35: a host write of v to STATUS clears exactly the bits among DONE, ILLEGAL, MEMERR, OVR and WRAP
that are 1 in v; every other bit of STATUS, and everything else, is unchanged. -/
def Obligations.StatusWriteOneToClears : Prop :=
  ∀ (s : State) (v : Word),
    (s.regWrite .status v).statusWord = s.statusWord &&& ~~~(v &&& 0x0000003E#32) ∧
    s.regWrite .status v = { s with status := (s.regWrite .status v).status }

/-- R34: the layout of STATUS: each field at its bits, reserved bits 0. -/
def Obligations.StatusLayout : Prop :=
  ∀ s : State,
    (s.statusWord.getLsbD 0 = true ↔ s.engine ≠ .idle) ∧
    s.statusWord.getLsbD 1 = s.status.done ∧ s.statusWord.getLsbD 2 = s.status.illegal ∧
    s.statusWord.getLsbD 3 = s.status.memerr ∧ s.statusWord.getLsbD 4 = s.status.ovr ∧
    s.statusWord.getLsbD 5 = s.status.wrap ∧
    (s.statusWord.getLsbD 8 = true ↔ s.variant = .rfc7539) ∧
    s.statusWord.extractLsb' 12 4 = s.status.cause.code ∧
    s.statusWord &&& 0xFFFF0EC0#32 = 0#32

/-- R33, R30, R43: a CTRL write, busy or not, stores IE from bit 0 and nothing else, and CTRL then reads
that bit and 0 elsewhere; ID reads 0x43433230, CMD and reserved offsets read 0; writes of ID, WORDk,
MASKk and reserved offsets are ignored. -/
def Obligations.ControlAndReadOnlyRegisters : Prop :=
  ∀ (s : State) (v : Word),
    (s.regWrite .ctrl v).regRead .ctrl = v &&& 0x00000001#32 ∧
    s.regWrite .ctrl v = { s with ie := v.getLsbD 0 } ∧
    s.regRead .id = 0x43433230#32 ∧ s.regRead .cmd = 0#32 ∧ s.regRead .reserved = 0#32 ∧
    s.regWrite .id v = s ∧ s.regWrite .reserved v = s ∧
    ∀ k, s.regWrite (.word k) v = s ∧ s.regWrite (.mask k) v = s

/-- R73 (while idle): a BUF write stores byte lane j at a' + j, a' = a & ~3, only where strobe j is 1;
every other byte and everything else is unchanged. -/
def Obligations.BufWriteStoresStrobedLanes : Prop :=
  ∀ (s : State) (a : Nat) (v : Word) (st : BitVec 4), s.engine = .idle →
    (∀ j, j < 4 → (s.bufWrite a v st).memRead (a / 4 * 4 + j) =
      if st.getLsbD j then v.extractLsb' (8 * j) 8 else s.memRead (a / 4 * 4 + j)) ∧
    (∀ b, ¬ (a / 4 * 4 ≤ b ∧ b < a / 4 * 4 + 4) → (s.bufWrite a v st).memRead b = s.memRead b) ∧
    s.bufWrite a v st = { s with buf := (s.bufWrite a v st).buf }

/-- R72, R80, and R71, R73 for the data: a step that takes a bus read changes only the event list and
what the host has read, and the host has then read what the register at the offset, or the bus word of
BUF, reads as: `regRead` and `bufRead`, of which the statements on the registers and on BUF speak. -/
def Obligations.ReadsHaveNoSideEffect : Prop :=
  ∀ (s : State) (addr : Nat) (rest : List Event), s.inbox = .busRead addr :: rest →
    (∀ t, step s = .next t → ∃ v, t = { s with inbox := rest, replies := v :: s.replies }) ∧
    (∀ o, targetOf s.params addr = some (.reg o) →
      step s = .next { s with inbox := rest, replies := s.regRead (regAt o) :: s.replies }) ∧
    ∀ a, targetOf s.params addr = some (.buf a) →
      step s = .next { s with inbox := rest, replies := s.bufRead a :: s.replies }

/-- R71, R73: a step that takes a bus write does to the block what `regWrite` does for the register at
the offset, with the data and whatever the strobes are, or what `bufWrite` does for the byte address,
with data and strobes, and removes the event; the host has read nothing. The statements on
`regWrite` and `bufWrite` reach a step through this one. -/
def Obligations.BusWritesActOnTheirTarget : Prop :=
  ∀ (s : State) (addr : Nat) (v : Word) (st : BitVec 4) (rest : List Event),
    s.inbox = .busWrite addr v st :: rest →
    (∀ o, targetOf s.params addr = some (.reg o) →
      step s = .next { s.regWrite (regAt o) v with inbox := rest, replies := s.replies }) ∧
    ∀ a, targetOf s.params addr = some (.buf a) →
      step s = .next { s.bufWrite a v st with inbox := rest, replies := s.replies }

/-- R265 phase 1 and R37: a write of CMD that meets an idle engine latches the word and the operand
registers, sets BUSY and clears DONE, so that irq is 0; nothing else changes. -/
def Obligations.CommandWriteIsAccepted : Prop :=
  ∀ (s : State) (addr : Nat) (c : Word) (st : BitVec 4) (rest : List Event) (o : Nat),
    s.engine = .idle → s.inbox = .busWrite addr c st :: rest →
    targetOf s.params addr = some (.reg o) → o / 4 * 4 = 0x0C →
    ∃ t, step s = .next t ∧ t.irq = false ∧ t.regRead .status &&& 0x00000003#32 = 1#32 ∧
      t = { s with
        inbox := rest
        engine := .busy c s.regs
        status := { s.status with done := false } }

/-- R240: irq is CTRL.IE & STATUS.DONE as the host reads them: it asserts at the completion of every
command, successful or not, when IE = 1, and at once when IE is set while DONE is 1. -/
def Obligations.IrqFollowsEnableAndDone : Prop :=
  (∀ s : State, s.irq = (s.ctrlWord.getLsbD 0 && s.statusWord.getLsbD 1)) ∧
  (∀ (s t : State) (cmd : Word) (ops : Operands), s.engine = .busy cmd ops →
    s.engineTurn = .next t → t.irq = s.ie) ∧
  ∀ s : State, s.status.done = true → (s.regWrite .ctrl 1#32).irq = true

/-! ### Reset during a command, termination, isolation, waiting -/

/-- R260, R261: reset. All registers and state take their reset values (so DONE and irq are 0) and the
parameters stay; BUF bytes outside the running command's destination range keep their value, and those
inside are draws: one fresh unknown each. Idle, or in a command that writes no BUF byte, BUF is
unchanged. The range of a command that would report an error, and of a word that is no command, is the
model's reading (log entry 8). -/
def Obligations.ResetAbandonsCommand : Prop :=
  ∀ (s : State) (rest : List Event), s.inbox = .reset :: rest →
    ∃ t, step s = .next t ∧
      t = { State.resetOf s.params with
        buf := t.buf, draws := t.draws, inbox := rest, replies := s.replies } ∧
      (s.engine = .idle → t.buf = s.buf) ∧
      (∀ cmd ops i, s.engine = .busy cmd ops → decode cmd = .ok i →
        let range := match i with
          | .permuteBuf => (ops.dstAddr.toNat, 64)
          | .apply | .applySeek => (ops.dstAddr.toNat, ops.length.toNat)
          | .applyIp | .applySeekIp => (ops.srcAddr.toNat, ops.length.toNat)
          | _ => (0, 0)
        t.draws = s.draws + range.2 ∧
        ∀ b, t.memRead b =
          if range.1 ≤ b ∧ b < range.1 + range.2 ∧ b < s.params.bufSize
            then Config.drawnByte (s.draws + (b - range.1)) else s.memRead b) ∧
      ∀ cmd ops e, s.engine = .busy cmd ops → decode cmd = .error e → t.buf = s.buf

/-- R273: every accepted command completes unless reset intervenes: from a busy state whose events are
the block's own and hold no reset, some state within one step more than the events left has the engine
idle and DONE set. That the turn comes when no event is left is the model's choice (log entry 3). -/
def Obligations.AcceptedCommandCompletes : Prop :=
  ∀ (s : State) (cmd : Word) (ops : Operands), s.engine = .busy cmd ops → s.NoStray →
    .reset ∉ s.inbox →
    ∃ n t, n ≤ s.inbox.length + 1 ∧ Host.Core.run Sys2Proof.core n s = .next t ∧
      t.engine = .idle ∧ t.status.done = true

/-- R271 and R78: a host access that falls between acceptance and completion does not change the
command: completing after it gives the state that completing first gives, but for OVR, CTRL, the sticky
bits the host clears and the host's own lists. -/
def Obligations.HostCannotDisturbCommand : Prop :=
  ∀ (s s' t : State) (cmd : Word) (ops : Operands) (e : Event),
    s.engine = .busy cmd ops → e ≠ .engineTurn → e ≠ .reset →
    s.takeEvent e = .next s' → s.engineTurn = .next t →
    ∃ t', s'.engineTurn = .next t' ∧ t'.w = t.w ∧ t'.variant = t.variant ∧ t'.mask = t.mask ∧
      t'.regs = t.regs ∧ t'.buf = t.buf ∧ t'.engine = t.engine ∧
      t'.status.done = t.status.done ∧ t'.status.cause = t.status.cause

/-- R120, WAIT: after any number of polls that find the engine busy, the command completes and the last
STATUS read finds BUSY = 0; every poll before it read BUSY = 1. The number of polls is
free (log entry 15). -/
def Obligations.WaitEndsIdle : Prop :=
  ∀ (s : State) (cmd : Word) (ops : Operands) (polls : Nat) (rest : List Event),
    s.params.wf → s.engine = .busy cmd ops → s.inbox = waitEvents s.params polls ++ rest →
    ∃ t x xs, Host.Core.run Sys2Proof.core (polls + 2) s = .next t ∧
      t.engine = .idle ∧ t.status.done = true ∧ t.inbox = rest ∧
      t.replies = x :: (xs ++ s.replies) ∧ x = t.statusWord ∧ x.getLsbD 0 = false ∧
      xs.length = polls ∧ ∀ y ∈ xs, y.getLsbD 0 = true
end

