-- ==== Sys2Proof/Laws/State.lean ====
section
/-! SUPPORT. One lemma for each field of each state update, so that no proof unfolds a record update,
and the flags of each STATUS update. -/

namespace Sys2Proof.Machine

open Sys2Proof

variable (s : State)

@[simp] theorem State.complete_params (c : Cause) : (s.complete c).params = s.params := rfl
@[simp] theorem State.complete_w (c : Cause) : (s.complete c).w = s.w := rfl
@[simp] theorem State.complete_variant (c : Cause) : (s.complete c).variant = s.variant := rfl
@[simp] theorem State.complete_mask (c : Cause) : (s.complete c).mask = s.mask := rfl
@[simp] theorem State.complete_regs (c : Cause) : (s.complete c).regs = s.regs := rfl
@[simp] theorem State.complete_ie (c : Cause) : (s.complete c).ie = s.ie := rfl
@[simp] theorem State.complete_status (c : Cause) :
    (s.complete c).status = s.status.completed c := rfl
@[simp] theorem State.complete_engine (c : Cause) : (s.complete c).engine = .idle := rfl
@[simp] theorem State.complete_buf (c : Cause) : (s.complete c).buf = s.buf := rfl
@[simp] theorem State.complete_draws (c : Cause) : (s.complete c).draws = s.draws := rfl
@[simp] theorem State.complete_inbox (c : Cause) : (s.complete c).inbox = s.inbox := rfl
@[simp] theorem State.complete_replies (c : Cause) : (s.complete c).replies = s.replies := rfl

@[simp] theorem State.accept_params (c : Word) : (s.accept c).params = s.params := rfl
@[simp] theorem State.accept_w (c : Word) : (s.accept c).w = s.w := rfl
@[simp] theorem State.accept_variant (c : Word) : (s.accept c).variant = s.variant := rfl
@[simp] theorem State.accept_mask (c : Word) : (s.accept c).mask = s.mask := rfl
@[simp] theorem State.accept_regs (c : Word) : (s.accept c).regs = s.regs := rfl
@[simp] theorem State.accept_ie (c : Word) : (s.accept c).ie = s.ie := rfl
@[simp] theorem State.accept_status (c : Word) : (s.accept c).status = s.status.accepted := rfl
@[simp] theorem State.accept_engine (c : Word) : (s.accept c).engine = .busy c s.regs := rfl
@[simp] theorem State.accept_buf (c : Word) : (s.accept c).buf = s.buf := rfl
@[simp] theorem State.accept_draws (c : Word) : (s.accept c).draws = s.draws := rfl
@[simp] theorem State.accept_inbox (c : Word) : (s.accept c).inbox = s.inbox := rfl
@[simp] theorem State.accept_replies (c : Word) : (s.accept c).replies = s.replies := rfl

@[simp] theorem State.dropWrite_params : s.dropWrite.params = s.params := rfl
@[simp] theorem State.dropWrite_w : s.dropWrite.w = s.w := rfl
@[simp] theorem State.dropWrite_variant : s.dropWrite.variant = s.variant := rfl
@[simp] theorem State.dropWrite_mask : s.dropWrite.mask = s.mask := rfl
@[simp] theorem State.dropWrite_regs : s.dropWrite.regs = s.regs := rfl
@[simp] theorem State.dropWrite_ie : s.dropWrite.ie = s.ie := rfl
@[simp] theorem State.dropWrite_status : s.dropWrite.status = s.status.overrun := rfl
@[simp] theorem State.dropWrite_engine : s.dropWrite.engine = s.engine := rfl
@[simp] theorem State.dropWrite_buf : s.dropWrite.buf = s.buf := rfl
@[simp] theorem State.dropWrite_draws : s.dropWrite.draws = s.draws := rfl
@[simp] theorem State.dropWrite_inbox : s.dropWrite.inbox = s.inbox := rfl
@[simp] theorem State.dropWrite_replies : s.dropWrite.replies = s.replies := rfl

@[simp] theorem State.setSeq_params (n : Nat) : (s.setSeq n).params = s.params := rfl
@[simp] theorem State.setSeq_w (n : Nat) : (s.setSeq n).w = withSeq s.variant s.w n := rfl
@[simp] theorem State.setSeq_variant (n : Nat) : (s.setSeq n).variant = s.variant := rfl
@[simp] theorem State.setSeq_mask (n : Nat) : (s.setSeq n).mask = s.mask := rfl
@[simp] theorem State.setSeq_regs (n : Nat) : (s.setSeq n).regs = s.regs := rfl
@[simp] theorem State.setSeq_ie (n : Nat) : (s.setSeq n).ie = s.ie := rfl
@[simp] theorem State.setSeq_status (n : Nat) :
    (s.setSeq n).status = s.status.orWrap (decide (2 ^ seqWidth s.variant ≤ n)) := rfl
@[simp] theorem State.setSeq_engine (n : Nat) : (s.setSeq n).engine = s.engine := rfl
@[simp] theorem State.setSeq_buf (n : Nat) : (s.setSeq n).buf = s.buf := rfl
@[simp] theorem State.setSeq_draws (n : Nat) : (s.setSeq n).draws = s.draws := rfl
@[simp] theorem State.setSeq_inbox (n : Nat) : (s.setSeq n).inbox = s.inbox := rfl
@[simp] theorem State.setSeq_replies (n : Nat) : (s.setSeq n).replies = s.replies := rfl

@[simp] theorem State.incSeq_params : s.incSeq.params = s.params := rfl
@[simp] theorem State.incSeq_w :
    s.incSeq.w = withSeq s.variant s.w ((seqOf s.variant s.w + 1) % 2 ^ seqWidth s.variant) := rfl
@[simp] theorem State.incSeq_variant : s.incSeq.variant = s.variant := rfl
@[simp] theorem State.incSeq_mask : s.incSeq.mask = s.mask := rfl
@[simp] theorem State.incSeq_regs : s.incSeq.regs = s.regs := rfl
@[simp] theorem State.incSeq_ie : s.incSeq.ie = s.ie := rfl
@[simp] theorem State.incSeq_status :
    s.incSeq.status = s.status.orWrap (decide ((seqOf s.variant s.w + 1) % 2 ^ seqWidth s.variant = 0)) := rfl
@[simp] theorem State.incSeq_engine : s.incSeq.engine = s.engine := rfl
@[simp] theorem State.incSeq_buf : s.incSeq.buf = s.buf := rfl
@[simp] theorem State.incSeq_draws : s.incSeq.draws = s.draws := rfl
@[simp] theorem State.incSeq_inbox : s.incSeq.inbox = s.inbox := rfl
@[simp] theorem State.incSeq_replies : s.incSeq.replies = s.replies := rfl

@[simp] theorem State.generateMask_params : s.generateMask.params = s.params := by simp only [State.generateMask]
@[simp] theorem State.generateMask_w : s.generateMask.w = s.w := by simp only [State.generateMask]
@[simp] theorem State.generateMask_variant : s.generateMask.variant = s.variant := by simp only [State.generateMask]
@[simp] theorem State.generateMask_mask : s.generateMask.mask = permute s.w := rfl
@[simp] theorem State.generateMask_regs : s.generateMask.regs = s.regs := by simp only [State.generateMask]
@[simp] theorem State.generateMask_ie : s.generateMask.ie = s.ie := by simp only [State.generateMask]
@[simp] theorem State.generateMask_status : s.generateMask.status = s.status := by simp only [State.generateMask]
@[simp] theorem State.generateMask_engine : s.generateMask.engine = s.engine := by simp only [State.generateMask]
@[simp] theorem State.generateMask_buf : s.generateMask.buf = s.buf := by simp only [State.generateMask]
@[simp] theorem State.generateMask_draws : s.generateMask.draws = s.draws := by simp only [State.generateMask]
@[simp] theorem State.generateMask_inbox : s.generateMask.inbox = s.inbox := by simp only [State.generateMask]
@[simp] theorem State.generateMask_replies : s.generateMask.replies = s.replies := by simp only [State.generateMask]

@[simp] theorem State.memWrite_params (a : Nat) (v : Byte) :
    (s.memWrite a v).params = s.params := rfl
@[simp] theorem State.memWrite_w (a : Nat) (v : Byte) : (s.memWrite a v).w = s.w := rfl
@[simp] theorem State.memWrite_variant (a : Nat) (v : Byte) :
    (s.memWrite a v).variant = s.variant := rfl
@[simp] theorem State.memWrite_mask (a : Nat) (v : Byte) : (s.memWrite a v).mask = s.mask := rfl
@[simp] theorem State.memWrite_regs (a : Nat) (v : Byte) : (s.memWrite a v).regs = s.regs := rfl
@[simp] theorem State.memWrite_ie (a : Nat) (v : Byte) : (s.memWrite a v).ie = s.ie := rfl
@[simp] theorem State.memWrite_status (a : Nat) (v : Byte) :
    (s.memWrite a v).status = s.status := rfl
@[simp] theorem State.memWrite_engine (a : Nat) (v : Byte) :
    (s.memWrite a v).engine = s.engine := rfl
@[simp] theorem State.memWrite_buf (a : Nat) (v : Byte) :
    (s.memWrite a v).buf = s.buf.write a v := rfl
@[simp] theorem State.memWrite_draws (a : Nat) (v : Byte) : (s.memWrite a v).draws = s.draws := rfl
@[simp] theorem State.memWrite_inbox (a : Nat) (v : Byte) : (s.memWrite a v).inbox = s.inbox := rfl
@[simp] theorem State.memWrite_replies (a : Nat) (v : Byte) :
    (s.memWrite a v).replies = s.replies := rfl

@[simp] theorem Status.completed_done (st : Status) (c : Cause) :
    (st.completed c).done = true := rfl
@[simp] theorem Status.completed_illegal (st : Status) (c : Cause) :
    (st.completed c).illegal = (st.illegal || c.setsIllegal) := rfl
@[simp] theorem Status.completed_memerr (st : Status) (c : Cause) :
    (st.completed c).memerr = (st.memerr || c.setsMemerr) := rfl
@[simp] theorem Status.completed_ovr (st : Status) (c : Cause) :
    (st.completed c).ovr = st.ovr := rfl
@[simp] theorem Status.completed_wrap (st : Status) (c : Cause) :
    (st.completed c).wrap = st.wrap := rfl
@[simp] theorem Status.completed_cause (st : Status) (c : Cause) : (st.completed c).cause = c := rfl

@[simp] theorem Status.accepted_done (st : Status) : st.accepted.done = false := rfl
@[simp] theorem Status.accepted_illegal (st : Status) : st.accepted.illegal = st.illegal := rfl
@[simp] theorem Status.accepted_memerr (st : Status) : st.accepted.memerr = st.memerr := rfl
@[simp] theorem Status.accepted_ovr (st : Status) : st.accepted.ovr = st.ovr := rfl
@[simp] theorem Status.accepted_wrap (st : Status) : st.accepted.wrap = st.wrap := rfl
@[simp] theorem Status.accepted_cause (st : Status) : st.accepted.cause = st.cause := rfl

@[simp] theorem Status.overrun_done (st : Status) : st.overrun.done = st.done := rfl
@[simp] theorem Status.overrun_illegal (st : Status) : st.overrun.illegal = st.illegal := rfl
@[simp] theorem Status.overrun_memerr (st : Status) : st.overrun.memerr = st.memerr := rfl
@[simp] theorem Status.overrun_ovr (st : Status) : st.overrun.ovr = true := rfl
@[simp] theorem Status.overrun_wrap (st : Status) : st.overrun.wrap = st.wrap := rfl
@[simp] theorem Status.overrun_cause (st : Status) : st.overrun.cause = st.cause := rfl

@[simp] theorem Status.orWrap_done (st : Status) (b : Bool) : (st.orWrap b).done = st.done := rfl
@[simp] theorem Status.orWrap_illegal (st : Status) (b : Bool) :
    (st.orWrap b).illegal = st.illegal := rfl
@[simp] theorem Status.orWrap_memerr (st : Status) (b : Bool) :
    (st.orWrap b).memerr = st.memerr := rfl
@[simp] theorem Status.orWrap_ovr (st : Status) (b : Bool) : (st.orWrap b).ovr = st.ovr := rfl
@[simp] theorem Status.orWrap_wrap (st : Status) (b : Bool) :
    (st.orWrap b).wrap = (st.wrap || b) := rfl
@[simp] theorem Status.orWrap_cause (st : Status) (b : Bool) : (st.orWrap b).cause = st.cause := rfl

@[simp] theorem Status.writeOneToClear_done (st : Status) (v : Word) :
    (st.writeOneToClear v).done = (st.done && !v.getLsbD 1) := rfl
@[simp] theorem Status.writeOneToClear_illegal (st : Status) (v : Word) :
    (st.writeOneToClear v).illegal = (st.illegal && !v.getLsbD 2) := rfl
@[simp] theorem Status.writeOneToClear_memerr (st : Status) (v : Word) :
    (st.writeOneToClear v).memerr = (st.memerr && !v.getLsbD 3) := rfl
@[simp] theorem Status.writeOneToClear_ovr (st : Status) (v : Word) :
    (st.writeOneToClear v).ovr = (st.ovr && !v.getLsbD 4) := rfl
@[simp] theorem Status.writeOneToClear_wrap (st : Status) (v : Word) :
    (st.writeOneToClear v).wrap = (st.wrap && !v.getLsbD 5) := rfl
@[simp] theorem Status.writeOneToClear_cause (st : Status) (v : Word) :
    (st.writeOneToClear v).cause = st.cause := rfl

@[simp] theorem Status.orWrap_false (st : Status) : st.orWrap false = st := by simp [Status.orWrap]
@[simp] theorem Status.orWrap_self (st : Status) : st.orWrap st.wrap = st := by simp [Status.orWrap]
@[simp] theorem Status.orWrap_orWrap (st : Status) (a b : Bool) :
    (st.orWrap a).orWrap b = st.orWrap (a || b) := by simp [Status.orWrap, Bool.or_assoc]

-- Reset leaves every element of R20 but BUF at its reset value (R48, R260).
@[simp] theorem State.hardReset_params : s.hardReset.params = s.params := rfl
@[simp] theorem State.hardReset_w : s.hardReset.w = Vector.replicate 16 0#32 := rfl
@[simp] theorem State.hardReset_variant : s.hardReset.variant = .djb := rfl
@[simp] theorem State.hardReset_mask : s.hardReset.mask = Vector.replicate 64 0#8 := rfl
@[simp] theorem State.hardReset_regs : s.hardReset.regs = Operands.zero := rfl
@[simp] theorem State.hardReset_ie : s.hardReset.ie = false := rfl
@[simp] theorem State.hardReset_status : s.hardReset.status = Status.zero := rfl
@[simp] theorem State.hardReset_engine : s.hardReset.engine = .idle := rfl
@[simp] theorem State.hardReset_inbox : s.hardReset.inbox = s.inbox := rfl
@[simp] theorem State.hardReset_replies : s.hardReset.replies = s.replies := rfl

end Sys2Proof.Machine
end

