-- ==== Sys2Proof/Laws/Memory.lean ====
section
/-! SUPPORT. The laws of BUF: read after write, the canonical form and that every memory operation
keeps it, byte strings, and the bytes a reset draws. -/

namespace Sys2Proof.Machine

open Sys2Proof

theorem Memory.read?_write (m : Memory) (a b : Nat) (v : Byte) :
    (m.write a v).read? b = if b = a then some v else m.read? b := by
  induction m with
  | nil => rfl
  | cons c m ih =>
    obtain ⟨k, u⟩ := c
    by_cases h1 : a < k
    · by_cases h : b = a <;> simp [Memory.write, Memory.read?, h1, h]
    · by_cases h2 : a = k
      · subst h2
        by_cases h : b = a <;> simp [Memory.write, Memory.read?, h]
      · by_cases h : b = a
        · subst h
          simp [Memory.write, Memory.read?, h1, h2, ih]
        · simp [Memory.write, Memory.read?, h1, h2, ih, h]

/-- The entries of a written memory are the written one and entries that were there. -/
theorem Memory.mem_write {m : Memory} {a : Nat} {v : Byte} {x : Host.Cell}
    (h : x ∈ m.write a v) : x = (a, v) ∨ x ∈ m := by
  induction m with
  | nil => simpa [Memory.write] using h
  | cons c m ih =>
    obtain ⟨k, u⟩ := c
    simp only [Memory.write] at h
    split_ifs at h
    · simpa using h
    · rcases List.mem_cons.1 h with h | h
      · exact .inl h
      · exact .inr (List.mem_cons_of_mem _ h)
    · rcases List.mem_cons.1 h with h | h
      · exact .inr (h ▸ List.mem_cons_self)
      · exact (ih h).imp_right (List.mem_cons_of_mem _)

theorem Memory.wf_write {m : Memory} (h : m.wf) (a : Nat) (v : Byte) : (m.write a v).wf := by
  induction m with
  | nil => simp [Memory.write, Memory.wf]
  | cons c m ih =>
    obtain ⟨k, u⟩ := c
    obtain ⟨h1, h2⟩ := List.pairwise_cons.1 h
    simp only [Memory.write]
    split_ifs with h3 h4
    · refine List.pairwise_cons.2 ⟨fun x hx => ?_, h⟩
      rcases List.mem_cons.1 hx with rfl | hx
      · exact h3
      · exact lt_trans h3 (h1 x hx)
    · subst h4
      exact List.pairwise_cons.2 ⟨h1, h2⟩
    · refine List.pairwise_cons.2 ⟨fun x hx => ?_, ih h2⟩
      rcases Memory.mem_write hx with rfl | hx
      · show k < a
        omega
      · exact h1 x hx

theorem Memory.read?_eq_none_of_lt {m : Memory} {a : Nat} (h : ∀ x ∈ m, a < x.1) :
    m.read? a = none := by
  induction m with
  | nil => rfl
  | cons c m ih =>
    have h1 := h c List.mem_cons_self
    simp only [Memory.read?]
    rw [if_neg (by omega), ih fun x hx => h x (List.mem_cons_of_mem _ hx)]

/-- Equal memories are equal data: two canonical memories with the same written bytes are one list. -/
theorem Memory.ext_of_wf {m n : Memory} (hm : m.wf) (hn : n.wf)
    (h : ∀ a, m.read? a = n.read? a) : m = n := by
  induction m generalizing n with
  | nil =>
    cases n with
    | nil => rfl
    | cons d n => simpa [Memory.read?] using h d.1
  | cons c m ih =>
    obtain ⟨hc, hm'⟩ := List.pairwise_cons.1 hm
    cases n with
    | nil => simpa [Memory.read?] using (h c.1).symm
    | cons d n =>
      obtain ⟨hd, hn'⟩ := List.pairwise_cons.1 hn
      have key : ∀ {x y : Host.Cell} {p q : Memory}, (∀ z ∈ p, x.1 < z.1) → (∀ z ∈ q, y.1 < z.1) →
          Memory.read? (x :: p) x.1 = Memory.read? (y :: q) x.1 → ¬ x.1 < y.1 := by
        intro x y p q _ hq hr hlt
        have : Memory.read? (y :: q) x.1 = none :=
          Memory.read?_eq_none_of_lt fun z hz => by
            rcases List.mem_cons.1 hz with rfl | hz
            · exact hlt
            · exact lt_trans hlt (hq z hz)
        simp [Memory.read?] at hr this
        simp_all
      have h1 := key hc hd (h c.1)
      have h2 := key hd hc (h d.1).symm
      have hk : c.1 = d.1 := by omega
      have hv : c.2 = d.2 := by simpa [Memory.read?, hk] using h c.1
      obtain rfl : c = d := Prod.ext hk hv
      congr 1
      refine ih hm' hn' fun a => ?_
      by_cases ha : a = c.1
      · subst ha
        rw [Memory.read?_eq_none_of_lt hc, Memory.read?_eq_none_of_lt hd]
      · simpa [Memory.read?, ha] using h a

/-! ### Bytes of BUF -/

theorem State.memRead_congr {s t : State} (h : t.buf = s.buf) (a : Nat) :
    t.memRead a = s.memRead a := by
  simp [State.memRead, h]

theorem State.memReadBytes_congr {s t : State} (h : t.buf = s.buf) (a n : Nat) :
    t.memReadBytes a n = s.memReadBytes a n := by
  simp [State.memReadBytes, State.memRead, h]

@[simp] theorem State.memRead_memWrite (s : State) (a b : Nat) (v : Byte) :
    (s.memWrite a v).memRead b = if b = a then v else s.memRead b := by
  simp only [State.memRead, State.memWrite_buf, Memory.read?_write]
  split_ifs <;> rfl

@[simp] theorem State.memRead_complete (s : State) (c : Cause) (a : Nat) :
    (s.complete c).memRead a = s.memRead a := rfl

@[simp] theorem State.memRead_setSeq (s : State) (n a : Nat) :
    (s.setSeq n).memRead a = s.memRead a := rfl

@[simp] theorem State.memRead_incSeq (s : State) (a : Nat) : s.incSeq.memRead a = s.memRead a := rfl

@[simp] theorem State.memRead_generateMask (s : State) (a : Nat) :
    s.generateMask.memRead a = s.memRead a :=
  State.memRead_congr (by simp) a

@[simp] theorem State.length_memReadBytes (s : State) (a n : Nat) :
    (s.memReadBytes a n).length = n := by
  simp [State.memReadBytes]

@[simp] theorem State.getElem_memReadBytes (s : State) (a n j : Nat)
    (h : j < (s.memReadBytes a n).length) : (s.memReadBytes a n)[j] = s.memRead (a + j) := by
  simp [State.memReadBytes]

theorem State.getD_memReadBytes (s : State) (a n j : Nat) :
    (s.memReadBytes a n).getD j 0#8 = if j < n then s.memRead (a + j) else 0#8 := by
  split_ifs with h
  · simp [List.getD, State.memReadBytes, h]
  · simp [List.getD, State.memReadBytes, h]

/-! ### Byte strings written to BUF -/

/-- A byte string write changes BUF and nothing else. -/
theorem State.memWriteBytes_eq (s : State) (a : Nat) (vs : List Byte) :
    s.memWriteBytes a vs = { s with buf := (s.memWriteBytes a vs).buf } := by
  induction vs generalizing s a with
  | nil => rfl
  | cons v vs ih =>
    have h := ih (s.memWrite a v) (a + 1)
    simp only [State.memWriteBytes]
    rw [h]
    rfl

theorem State.memRead_memWriteBytes (s : State) (a b : Nat) (vs : List Byte) :
    (s.memWriteBytes a vs).memRead b =
      if a ≤ b ∧ b < a + vs.length then vs.getD (b - a) 0#8 else s.memRead b := by
  induction vs generalizing s a with
  | nil => simp [State.memWriteBytes, show ¬ (a ≤ b ∧ b < a) by omega]
  | cons v vs ih =>
    simp only [State.memWriteBytes, ih, State.memRead_memWrite, List.length_cons]
    by_cases h1 : b = a
    · subst h1
      simp
    · by_cases h2 : a + 1 ≤ b ∧ b < a + 1 + vs.length
      · rw [if_pos h2, if_pos (by omega), show b - a = (b - (a + 1)) + 1 by omega]
        simp [List.getD]
      · rw [if_neg h2, if_neg h1, if_neg (by omega)]

/-! ### The invariant of BUF: canonical, and no entry outside it -/

theorem Memory.inside_write {m : Memory} {size a : Nat} (h : m.inside size) (ha : a < size)
    (v : Byte) : (m.write a v).inside size := by
  intro x hx
  rcases Memory.mem_write hx with rfl | hx
  · exact ha
  · exact h x hx

theorem State.BufOk.memWrite {s : State} (h : s.BufOk) {a : Nat} (ha : a < s.params.bufSize)
    (v : Byte) : (s.memWrite a v).BufOk :=
  ⟨Memory.wf_write h.wf a v, Memory.inside_write h.inside ha v⟩

theorem State.BufOk.of_eq {s t : State} (h : s.BufOk) (hp : t.params = s.params)
    (hb : t.buf = s.buf) : t.BufOk :=
  ⟨hb ▸ h.wf, hp ▸ hb ▸ h.inside⟩

theorem State.BufOk.memWriteBytes {s : State} (h : s.BufOk) (vs : List Byte) {a : Nat}
    (ha : a + vs.length ≤ s.params.bufSize) : (s.memWriteBytes a vs).BufOk := by
  induction vs generalizing s a with
  | nil => exact h
  | cons v vs ih =>
    simp only [List.length_cons] at ha
    exact ih (h.memWrite (by omega) v) (by simpa using by omega)

theorem rangeOk_iff (p : Params) (base : Word) (n : Nat) :
    rangeOk p base n = true ↔ n = 0 ∨ base.toNat + n ≤ p.bufSize := by
  simp [rangeOk]

/-- `BUF_SIZE` is at most 2^32 (R8): every address of BUF fits a register. -/
theorem Params.bufSize_le (p : Params) : p.bufSize ≤ 2 ^ 32 :=
  Nat.pow_le_pow_right (by decide) (by have := p.bufLog.isLt; omega)

/-! ### The bytes a reset draws -/

theorem Memory.read?_drawBytes (size : Nat) (m : Memory) (a i n b : Nat) :
    (Memory.drawBytes size m a i n).read? b =
      if a ≤ b ∧ b < a + n ∧ b < size then some (Config.drawnByte (i + (b - a)))
      else m.read? b := by
  induction n generalizing m a i with
  | zero => simp [Memory.drawBytes, show ¬ (a ≤ b ∧ b < a ∧ b < size) by omega]
  | succ n ih =>
    simp only [Memory.drawBytes, ih]
    by_cases h1 : b = a
    · subst h1
      rw [if_neg (by omega)]
      by_cases h2 : b < size
      · simp [h2, Memory.read?_write]
      · simp [h2]
    · by_cases h2 : a + 1 ≤ b ∧ b < a + 1 + n ∧ b < size
      · rw [if_pos h2, if_pos (by omega), show i + 1 + (b - (a + 1)) = i + (b - a) by omega]
      · rw [if_neg h2, if_neg (by omega : ¬ (a ≤ b ∧ b < a + (n + 1) ∧ b < size))]
        split_ifs
        · rw [Memory.read?_write, if_neg h1]
        · rfl

theorem Memory.wf_drawBytes {m : Memory} (h : m.wf) (size a i n : Nat) :
    (Memory.drawBytes size m a i n).wf := by
  induction n generalizing m a i with
  | zero => exact h
  | succ n ih =>
    simp only [Memory.drawBytes]
    split_ifs
    · exact ih (Memory.wf_write h _ _) _ _
    · exact ih h _ _

theorem Memory.inside_drawBytes {m : Memory} {size : Nat} (h : m.inside size) (a i n : Nat) :
    (Memory.drawBytes size m a i n).inside size := by
  induction n generalizing m a i with
  | zero => exact h
  | succ n ih =>
    simp only [Memory.drawBytes]
    split_ifs with h1
    · exact ih (Memory.inside_write h h1 _) _ _
    · exact ih h _ _

end Sys2Proof.Machine
end

