-- ==== Sys2Proof/Laws/Words.lean ====
section
/-! SUPPORT. The laws of the data formats: the sequence inside the state words, the mask and its words,
padded byte strings, and the packed keys and nonces. -/

namespace Sys2Proof.Machine

open Sys2Proof

/-! ### The sequence (41_state_manager.md R160 to R162) -/

theorem seqWidth_cases (v : Variant) : seqWidth v = 64 ∨ seqWidth v = 32 := by
  cases v <;> simp [seqWidth]

theorem seqOf_lt (v : Variant) (w : Words) : seqOf v w < 2 ^ seqWidth v := by
  cases v
  · exact (w[13] ++ w[12]).isLt
  · exact w[12].isLt

/-- `hi : lo` is `hi * 2^32 + lo` (R11). -/
theorem toNat_append_words (hi lo : Word) :
    (hi ++ lo).toNat = hi.toNat * 2 ^ 32 + lo.toNat := by
  rw [BitVec.toNat_append, ← Nat.shiftLeft_add_eq_or_of_lt lo.isLt, Nat.shiftLeft_eq]

theorem ofNat_shiftRight_toNat (n : Nat) :
    (BitVec.ofNat 32 (n >>> 32)).toNat = n / 2 ^ 32 % 2 ^ 32 := by
  rw [BitVec.toNat_ofNat, Nat.shiftRight_eq_div_pow]

/-- A word of `withSeq` is a low or high half of the sequence, or as it was. -/
theorem getElem_withSeq (v : Variant) (w : Words) (n k : Nat) (h : k < 16) :
    (withSeq v w n)[k] =
      if k = 12 then BitVec.ofNat 32 n
      else if k = 13 ∧ v = .djb then BitVec.ofNat 32 (n >>> 32)
      else w[k] := by
  cases v
  · simp only [withSeq, Vector.getElem_set, eq_comm (a := k), and_true]
    by_cases h1 : 13 = k
    · subst h1; rfl
    · simp only [h1, if_false]
  · simp only [withSeq, Vector.getElem_set, eq_comm (a := k)]
    simp

theorem withSeq_withSeq (v : Variant) (w : Words) (m n : Nat) :
    withSeq v (withSeq v w m) n = withSeq v w n := by
  refine Vector.ext fun k hk => ?_
  simp only [getElem_withSeq]
  split_ifs <;> rfl

theorem withSeq_mod (v : Variant) (w : Words) (n : Nat) :
    withSeq v w (n % 2 ^ seqWidth v) = withSeq v w n := by
  refine Vector.ext fun k hk => ?_
  have lo : BitVec.ofNat 32 (n % 2 ^ seqWidth v) = BitVec.ofNat 32 n := by
    apply BitVec.eq_of_toNat_eq
    rcases seqWidth_cases v with h | h <;> simp only [h, BitVec.toNat_ofNat] <;> omega
  simp only [getElem_withSeq, lo]
  split_ifs with h1 h2
  · rfl
  · obtain ⟨-, rfl⟩ := h2
    apply BitVec.eq_of_toNat_eq
    simp only [ofNat_shiftRight_toNat, seqWidth]
    omega
  · rfl

theorem seqOf_withSeq (v : Variant) (w : Words) (n : Nat) :
    seqOf v (withSeq v w n) = n % 2 ^ seqWidth v := by
  cases v
  · simp only [seqOf, getElem_withSeq, seqWidth, toNat_append_words]
    simp only [if_true, and_self, show ¬ (13 = 12) by decide, if_false, BitVec.toNat_ofNat,
      Nat.shiftRight_eq_div_pow]
    omega
  · simp [seqOf, getElem_withSeq, seqWidth]

theorem withSeq_seqOf (v : Variant) (w : Words) : withSeq v w (seqOf v w) = w := by
  refine Vector.ext fun k hk => ?_
  have h12 : w[12].toNat < 2 ^ 32 := w[12].isLt
  have h13 : w[13].toNat < 2 ^ 32 := w[13].isLt
  rw [getElem_withSeq]
  cases v
  · simp only [seqOf, toNat_append_words]
    split_ifs with h1 h2
    · subst h1
      apply BitVec.eq_of_toNat_eq
      rw [BitVec.toNat_ofNat]
      omega
    · obtain ⟨rfl, -⟩ := h2
      apply BitVec.eq_of_toNat_eq
      rw [ofNat_shiftRight_toNat]
      omega
    · rfl
  · simp only [seqOf]
    split_ifs with h1 h2
    · subst h1; simp
    · simp at h2
    · rfl

/-- `IncSeq` moves the sequence to its successor (R162). -/
theorem State.incSeq_words (s : State) :
    s.incSeq.w = withSeq s.variant s.w (seqOf s.variant s.w + 1) := by
  rw [State.incSeq_w, withSeq_mod]

/-- Words outside the sequence are not written by SetSeq and IncSeq (R164). -/
theorem getElem_withSeq_of_ne (v : Variant) (w : Words) (n k : Nat) (h : k < 16)
    (h12 : k ≠ 12) (h13 : k ≠ 13 ∨ v = .rfc7539) : (withSeq v w n)[k] = w[k] := by
  rw [getElem_withSeq, if_neg h12, if_neg]
  rintro ⟨rfl, rfl⟩
  simp at h13

/-! ### The words of STATUS and CTRL (10_state.md R33, R34) -/

/-- STATUS bit by bit (R34). -/
theorem getLsbD_statusWord (s : State) (k : Nat) : s.statusWord.getLsbD k =
    if k = 0 then s.isBusy else if k = 1 then s.status.done else if k = 2 then s.status.illegal
    else if k = 3 then s.status.memerr else if k = 4 then s.status.ovr
    else if k = 5 then s.status.wrap else if k = 8 then decide (s.variant = .rfc7539)
    else if 12 ≤ k then s.status.cause.code.getLsbD (k - 12) else false := by
  by_cases h : k < 32
  · have hv : s.variant.bit.getLsbD 0 = decide (s.variant = .rfc7539) := by
      cases s.variant <;> rfl
    unfold State.statusWord
    rw [← hv]
    interval_cases k <;> simp only [BitVec.getLsbD_append] <;> simp
  · rw [BitVec.getLsbD_of_ge _ _ (by omega), BitVec.getLsbD_of_ge s.status.cause.code _ (by omega)]
    split_ifs <;> first | rfl | omega

/-- CTRL bit by bit (R33). -/
theorem getLsbD_ctrlWord (s : State) (k : Nat) :
    s.ctrlWord.getLsbD k = (decide (k = 0) && s.ie) := by
  unfold State.ctrlWord
  rw [BitVec.getLsbD_append]
  by_cases h : k = 0
  · subst h; simp
  · simp [show ¬ k < 1 by omega, h]

/-! ### The quarter round (40_block_permutation.md R130) -/

theorem quarterLine_sum (x : Words) {a d : Fin 16} (b : Fin 16) (n : Nat) (h : a ≠ d) :
    (quarterLine x a b d n)[a] = x[a] + x[b] := by
  have h' : ¬ d.val = a.val := fun e => h (Fin.ext e.symm)
  simp [quarterLine, Vector.getElem_set, h']

theorem quarterLine_mix (x : Words) {a d : Fin 16} (b : Fin 16) (n : Nat) (h : a ≠ d) :
    (quarterLine x a b d n)[d] = (x[d] ^^^ (x[a] + x[b])).rotateLeft n := by
  have h' : ¬ a.val = d.val := fun e => h (Fin.ext e)
  simp [quarterLine, rotl32, h']

theorem quarterLine_other (x : Words) {a d k : Fin 16} (b : Fin 16) (n : Nat) (ha : k ≠ a)
    (hd : k ≠ d) : (quarterLine x a b d n)[k] = x[k] := by
  have ha' : ¬ a.val = k.val := fun e => ha (Fin.ext e.symm)
  have hd' : ¬ d.val = k.val := fun e => hd (Fin.ext e.symm)
  simp [quarterLine, Vector.getElem_set, ha', hd']

/-! ### The mask and its words (40_block_permutation.md R138) -/

theorem le32_extract (x : Word) (l : List Byte) (i : Nat)
    (h : ∀ j, j < 4 → l.getD (i + j) 0#8 = byteOf x j) : le32 l i = x := by
  have h0 := h 0 (by decide)
  have h1 := h 1 (by decide)
  have h2 := h 2 (by decide)
  have h3 := h 3 (by decide)
  simp only [le32, h1, h2, h3]
  rw [show l.getD i 0#8 = byteOf x 0 from h0]
  ext k hk
  simp only [byteOf, BitVec.getElem_append, BitVec.getElem_extractLsb']
  split_ifs <;>
    (rw [← BitVec.getLsbD_eq_getElem]; congr 1; omega)

/-- Byte j of a word packed little-endian is the j-th of its four bytes (R12). -/
theorem byteOf_le32 (l : List Byte) (i j : Nat) (hj : j < 4) :
    byteOf (le32 l i) j = l.getD (i + j) 0#8 := by
  unfold byteOf le32
  obtain rfl | rfl | rfl | rfl : j = 0 ∨ j = 1 ∨ j = 2 ∨ j = 3 := by omega
  all_goals
    ext k hk
    simp only [BitVec.getElem_extractLsb', BitVec.getLsbD_append]
    rw [← BitVec.getLsbD_eq_getElem]
    split_ifs <;> first | omega | (congr 1; omega)

/-- Byte `4k + j` of a serialized result is byte j of word k (R117). -/
theorem maskByte_serialize (r : Words) (i : Nat) (h : i < 64) :
    maskByte (serialize r) i = byteOf r[i / 4] (i % 4) := by
  simp [maskByte, serialize, h]

/-- MASKk reads result word k, `LE32(SER(r), 4k) = r[k]` (R138). -/
theorem maskWord_serialize (r : Words) (k : Nat) (h : k < 16) : maskWord (serialize r) k = r[k] := by
  refine le32_extract _ _ _ fun j hj => ?_
  have h1 : 4 * k + j < 64 := by omega
  simp only [serialize, List.getD, Vector.toList_ofFn, List.getElem?_ofFn, h1, dif_pos,
    Option.getD_some]
  congr 1
  · congr 1; omega
  · omega

/-- MASKk after `permute` is result word k (R134, R138). -/
theorem maskWord_permute (w : Words) (k : Fin 16) :
    maskWord (permute w) k = (doubleRounds 10 w)[k] + w[k] := by
  rw [permute, maskWord_serialize _ _ k.isLt, permuteWords, Vector.getElem_ofFn]

/-- Byte i of `permute` is byte i % 4 of result word i / 4 (R117, R134). -/
theorem maskByte_permute (w : Words) (i : Nat) (h : i < 64) :
    maskByte (permute w) i = byteOf ((doubleRounds 10 w)[i / 4] + w[i / 4]) (i % 4) := by
  rw [permute, maskByte_serialize _ _ h, permuteWords, Vector.getElem_ofFn]
  rfl

/-- Word k of 64 BUF bytes, packed little-endian (R137). -/
theorem getElem_wordsOfBytes (s : State) (a : Nat) (k : Fin 16) :
    (wordsOfBytes (s.memReadBytes a 64))[k] =
      s.memRead (a + 4 * k + 3) ++ s.memRead (a + 4 * k + 2) ++ s.memRead (a + 4 * k + 1) ++
        s.memRead (a + 4 * k) := by
  have h := k.isLt
  simp only [wordsOfBytes, Fin.getElem_fin, Vector.getElem_ofFn, le32, State.getD_memReadBytes]
  rw [if_pos (by omega), if_pos (by omega), if_pos (by omega), if_pos (by omega)]
  simp only [Nat.add_assoc]

theorem maskByte_eq_getD (m : Mask) (j : Nat) : maskByte m j = m.toList.getD j 0#8 := by
  unfold maskByte
  split_ifs with h
  · simp [List.getD, h]
  · simp [List.getD, h]

/-! ### Padded strings (00_scope.md R11) -/

theorem length_padBytes (s : List Byte) (n : Nat) : (padBytes s n).length = n := by
  simp [padBytes]

theorem getD_padBytes (s : List Byte) (n j : Nat) :
    (padBytes s n).getD j 0#8 = if j < n then s.getD j 0#8 else 0#8 := by
  simp only [padBytes, List.getD, List.getElem?_append, List.length_take, List.getElem?_take,
    List.getElem?_replicate]
  by_cases h : j < n
  · by_cases h1 : j < s.length
    · simp [h, h1]
    · have h2 : ¬ j < min n s.length := by omega
      simp only [h2, h, if_false, if_true]
      split_ifs <;> simp [List.getElem?_eq_none (Nat.le_of_not_lt h1)]
  · have h2 : ¬ j < min n s.length := by omega
    simp only [h2, h, if_false]
    split_ifs <;> simp

/-- A padded key or nonce: the bytes of BUF that were read, then zeros (R11). -/
theorem getD_padBytes_memReadBytes (s : State) (a n len j : Nat) :
    (padBytes (s.memReadBytes a (min len n)) n).getD j 0#8 =
      if j < n ∧ j < len then s.memRead (a + j) else 0#8 := by
  rw [getD_padBytes]
  simp only [State.getD_memReadBytes]
  split_ifs <;> first | rfl | omega

/-! ### Packed keys and nonces (30_encoding.md R111 to R115) -/

theorem getElem_packShortKey (kb : List Byte) (w : Words) (k : Nat) (h : k < 16) :
    (packShortKey kb w)[k] =
      if h4 : k < 4 then sigma16[k]
      else if k < 8 then le32 (padBytes kb 16) (4 * (k - 4))
      else if k < 12 then le32 (padBytes kb 16) (4 * (k - 8))
      else w[k] := by
  simp [packShortKey]

theorem getElem_packLongKey (kb : List Byte) (w : Words) (k : Nat) (h : k < 16) :
    (packLongKey kb w)[k] =
      if h4 : k < 4 then sigma32[k]
      else if k < 12 then le32 (padBytes kb 32) (4 * (k - 4))
      else w[k] := by
  simp [packLongKey]

/-- SET_KEY writes W[0..11] only (R159). -/
theorem getElem_packKey_of_ge (v : Variant) (len : Nat) (kb : List Byte) (w : Words) (k : Nat)
    (h : k < 16) (h12 : 12 ≤ k) : (packKey v len kb w)[k] = w[k] := by
  unfold packKey
  split_ifs
  · rw [getElem_packShortKey, dif_neg (by omega), if_neg (by omega), if_neg (by omega)]
  · rw [getElem_packLongKey, dif_neg (by omega), if_neg (by omega)]

theorem getElem_packNonce (v : Variant) (nb : List Byte) (w : Words) (k : Nat) (h : k < 16) :
    (packNonce v nb w)[k] =
      match v with
      | .djb =>
        if k = 14 then le32 (padBytes nb 8) 0 else if k = 15 then le32 (padBytes nb 8) 4 else w[k]
      | .rfc7539 =>
        if k = 13 then le32 (padBytes nb 12) 0 else if k = 14 then le32 (padBytes nb 12) 4
        else if k = 15 then le32 (padBytes nb 12) 8 else w[k] := by
  cases v
  · simp only [packNonce, nonceCap, Vector.getElem_set]
    split_ifs <;> first | rfl | omega
  · simp only [packNonce, nonceCap, Vector.getElem_set]
    split_ifs <;> first | rfl | omega

/-- SET_NONCE does not touch the sequence, the key or the constant (R156, R157, R159). -/
theorem getElem_packNonce_of_lt (v : Variant) (nb : List Byte) (w : Words) (k : Nat) (h : k < 16)
    (h13 : k < 13 ∨ (k = 13 ∧ v = .djb)) : (packNonce v nb w)[k] = w[k] := by
  rw [getElem_packNonce]
  cases v
  · simp only
    rw [if_neg (by omega), if_neg (by omega)]
  · simp only
    have : k < 13 := by rcases h13 with h | ⟨_, h⟩ <;> first | exact h | cases h
    rw [if_neg (by omega), if_neg (by omega), if_neg (by omega)]

theorem seqOf_packNonce (v : Variant) (nb : List Byte) (w : Words) :
    seqOf v (packNonce v nb w) = seqOf v w := by
  cases v
  · simp only [seqOf]
    rw [getElem_packNonce_of_lt _ _ _ 12 (by decide) (by decide),
      getElem_packNonce_of_lt _ _ _ 13 (by decide) (by decide)]
  · simp only [seqOf]
    rw [getElem_packNonce_of_lt _ _ _ 12 (by decide) (by decide)]

end Sys2Proof.Machine
end

