-- ==== Sys2Proof/Laws/Applier.lean ====
section
/-! SUPPORT. What the apply loops do, once for all their callers: the bytes they stream, the final
sequence, the final mask and WRAP (42_stream_applier.md R193 to R208). -/

namespace Sys2Proof.Machine

open Sys2Proof

seal permute

/-! ### Byte-serial streams -/

theorem Streamed.refl_zero (d a : Nat) (ks : Nat → Byte) (s : State) : Streamed d a 0 ks s s :=
  ⟨fun _ h => absurd h (Nat.not_lt_zero _), fun _ _ => rfl⟩

/-- A stream of `m` bytes and then of the next `n` bytes is one stream of `m + n` bytes. -/
theorem Streamed.append {d a m n : Nat} {ks : Nat → Byte} {s t u : State}
    (h1 : Streamed d a m ks s t) (h2 : Streamed (d + m) (a + m) n (fun i => ks (m + i)) t u) :
    Streamed d a (m + n) ks s u := by
  refine ⟨fun i hi => ?_, fun b hb => ?_⟩
  · by_cases him : i < m
    · rw [h2.outside (d + i) (by omega), h1.inside i him]
      split_ifs with hc
      · rw [h2.outside (a + i) (by omega)]
      · rfl
    · obtain ⟨k, rfl⟩ : ∃ k, i = m + k := ⟨i - m, by omega⟩
      have h := h2.inside k (by omega)
      rw [show d + m + k = d + (m + k) by omega, show a + m + k = a + (m + k) by omega] at h
      rw [h]
      split_ifs with c1 c2 c2
      · rfl
      · omega
      · rw [h2.outside (a + (m + k)) (by omega)]
      · rw [h1.outside (a + (m + k)) (by omega)]
  · rw [h2.outside b (by omega), h1.outside b (by omega)]

/-- A stream does not look at anything but the bytes of BUF. -/
theorem Streamed.congr {d a L : Nat} {ks : Nat → Byte} {s t s' t' : State}
    (h : Streamed d a L ks s t) (hs : s'.buf = s.buf) (ht : t'.buf = t.buf) :
    Streamed d a L ks s' t' := by
  have e1 := State.memRead_congr hs
  have e2 := State.memRead_congr ht
  exact ⟨fun i hi => by simpa only [e1, e2] using h.inside i hi,
    fun b hb => by simpa only [e1, e2] using h.outside b hb⟩

/-- The streamed bytes are determined: two streams with one key stream from equal bytes end in equal
bytes, however the ranges overlap. -/
theorem Streamed.unique {d a L : Nat} {ks : Nat → Byte} {s t s' t' : State}
    (h : Streamed d a L ks s t) (h' : Streamed d a L ks s' t')
    (hs : ∀ b, s'.memRead b = s.memRead b) (b : Nat) : t'.memRead b = t.memRead b := by
  have key : ∀ n i, i < n → i < L → t'.memRead (d + i) = t.memRead (d + i) := by
    intro n
    induction n with
    | zero => intro i hi; omega
    | succ n ih =>
      intro i hi hL
      rw [h.inside i hL, h'.inside i hL]
      split_ifs with hc
      · have := ih (a + i - d) (by omega) (by omega)
        rw [show d + (a + i - d) = a + i by omega] at this
        rw [this]
      · rw [hs]
  by_cases hb : d ≤ b ∧ b < d + L
  · have := key (b - d + 1) (b - d) (by omega) (by omega)
    rwa [show d + (b - d) = b by omega] at this
  · rw [h.outside b hb, h'.outside b hb, hs]

/-- Where no source byte lies among destination bytes written before it is read, the output is the
plain XOR of the original bytes (R206). -/
theorem Streamed.plain {d a L : Nat} {ks : Nat → Byte} {s t : State} (h : Streamed d a L ks s t)
    (hda : d ≤ a ∨ a + L ≤ d) (i : Nat) (hi : i < L) :
    t.memRead (d + i) = s.memRead (a + i) ^^^ ks i := by
  rw [h.inside i hi, if_neg (by omega)]

/-- `xorBytes` changes BUF only. -/
theorem xorBytes_eq (d a j n : Nat) (s : State) :
    xorBytes d a j n s = { s with buf := (xorBytes d a j n s).buf } := by
  induction n generalizing d a j s with
  | zero => rfl
  | succ n ih =>
    simp only [xorBytes]
    rw [ih]
    rfl

theorem xorBytes_streamed (d a j n : Nat) (s : State) :
    Streamed d a n (fun i => maskByte s.mask (j + i)) s (xorBytes d a j n s) := by
  induction n generalizing d a j s with
  | zero => exact Streamed.refl_zero d a _ s
  | succ n ih =>
    have one : Streamed d a 1 (fun i => maskByte s.mask (j + i)) s
        (s.memWrite d (s.memRead a ^^^ maskByte s.mask j)) := by
      refine ⟨fun i hi => ?_, fun b hb => ?_⟩
      · obtain rfl : i = 0 := by omega
        simp
      · rw [State.memRead_memWrite, if_neg (by omega)]
    have h := one.append (n := n) (u := xorBytes d a j (n + 1) s) (by
      have := ih (d + 1) (a + 1) (j + 1) (s.memWrite d (s.memRead a ^^^ maskByte s.mask j))
      simp only [State.memWrite_mask] at this
      simpa only [xorBytes, Nat.add_assoc, Nat.add_comm 1] using this)
    rwa [Nat.add_comm] at h

theorem xorBytes_bufOk {s : State} (h : s.BufOk) (d a j : Nat) {n : Nat}
    (hd : d + n ≤ s.params.bufSize) : (xorBytes d a j n s).BufOk := by
  induction n generalizing d a j s with
  | zero => exact h
  | succ n ih =>
    exact ih (h.memWrite (by omega) _) _ _ _ (by simpa using by omega)

/-! ### The sequential forms (R194, R197, R208) -/

theorem keystreamBlock_mod (v : Variant) (w : Words) (b : Nat) :
    keystreamBlock v w (b % 2 ^ seqWidth v) = keystreamBlock v w b := by
  rw [keystreamBlock, withSeq_mod, keystreamBlock]

theorem keystreamBlock_withSeq (v : Variant) (w : Words) (m b : Nat) :
    keystreamBlock v (withSeq v w m) b = keystreamBlock v w b := by
  rw [keystreamBlock, withSeq_withSeq, keystreamBlock]

theorem permute_words (v : Variant) (w : Words) : permute w = keystreamBlock v w (seqOf v w) := by
  rw [keystreamBlock, withSeq_seqOf]

theorem keystreamByte_withSeq (v : Variant) (w : Words) (m p : Nat) :
    keystreamByte v (withSeq v w m) p = keystreamByte v w p := by
  rw [keystreamByte, keystreamBlock_withSeq, keystreamByte]

/-- The increment gives 0 exactly when it passes the last value of the counter (R162). -/
theorem wrap_succ (v : Variant) (q : Nat) (hq : q < 2 ^ seqWidth v) :
    decide ((q + 1) % 2 ^ seqWidth v = 0) = decide (2 ^ seqWidth v ≤ q + 1) := by
  rw [decide_eq_decide]
  by_cases h : q + 1 = 2 ^ seqWidth v
  · simp [h]
  · rw [Nat.mod_eq_of_lt (by omega)]
    omega

/-- WRAP over two stretches of a stream: block `x` and then `r` blocks on (R163). -/
theorem wrap_add (M x r : Nat) :
    (decide (M ≤ x) || decide (M ≤ x % M + r)) = decide (M ≤ x + r) := by
  rw [← Bool.decide_or, decide_eq_decide]
  by_cases h : M ≤ x
  · constructor <;> intro <;> [omega; exact .inl h]
  · rw [Nat.mod_eq_of_lt (by omega)]
    omega

/-- What the sequential loop leaves (R194, R197, R208): from byte `i` on it uses `nb` blocks. -/
structure SeqResult (d a n : Nat) (s t : State) : Prop where
  eq : t = { s with
    w := withSeq s.variant s.w (seqOf s.variant s.w + (n + 63) / 64)
    mask := if n = 0 then s.mask
      else keystreamBlock s.variant s.w (seqOf s.variant s.w + (n + 63) / 64 - 1)
    status := s.status.orWrap
      (decide (2 ^ seqWidth s.variant ≤ seqOf s.variant s.w + (n + 63) / 64))
    buf := t.buf }
  stream : Streamed d a n (fun i => keystreamByte s.variant s.w (64 * seqOf s.variant s.w + i)) s t

theorem SeqResult.zero (d a : Nat) (s : State) : SeqResult d a 0 s s := by
  refine ⟨?_, Streamed.refl_zero d a _ s⟩
  have h := Nat.not_le.2 (seqOf_lt s.variant s.w)
  ext1 <;> simp [withSeq_seqOf, h]

/-- One block, of up to 64 bytes, of the sequential loop: its mask is the block of the sequence, and
the sequence is then the next one. -/
theorem block_eq (d a n : Nat) (s : State) :
    xorBytes d a 0 n s.generateMask.incSeq = { s with
      w := withSeq s.variant s.w (seqOf s.variant s.w + 1)
      mask := keystreamBlock s.variant s.w (seqOf s.variant s.w)
      status := s.status.orWrap (decide (2 ^ seqWidth s.variant ≤ seqOf s.variant s.w + 1))
      buf := (xorBytes d a 0 n s.generateMask.incSeq).buf } := by
  rw [xorBytes_eq]
  have h := wrap_succ s.variant _ (seqOf_lt s.variant s.w)
  ext1 <;> simp [withSeq_mod, ← permute_words, h]

theorem block_streamed (d a n : Nat) (s : State) (hn : n ≤ 64) :
    Streamed d a n (fun i => keystreamByte s.variant s.w (64 * seqOf s.variant s.w + i)) s
      (xorBytes d a 0 n s.generateMask.incSeq) := by
  have h := (xorBytes_streamed d a 0 n s.generateMask.incSeq).congr (s' := s) (by simp) rfl
  refine ⟨fun i hi => ?_, h.outside⟩
  have e : maskByte (permute s.w) (0 + i) =
      keystreamByte s.variant s.w (64 * seqOf s.variant s.w + i) := by
    rw [keystreamByte, permute_words s.variant s.w]
    congr <;> omega
  rw [h.inside i hi, ← e]
  simp

/-- A block of 64 bytes and then the sequential result of the rest, or a last shorter block. -/
theorem SeqResult.cons {d a n m : Nat} {s t : State} (hn : 0 < n) (hn64 : n ≤ 64)
    (hm : m = 0 ∨ n = 64)
    (h : SeqResult (d + n) (a + n) m (xorBytes d a 0 n s.generateMask.incSeq) t) :
    SeqResult d a (n + m) s t := by
  have hst := block_streamed d a n s hn64
  have hue := block_eq d a n s
  obtain ⟨he, hs⟩ := h
  generalize xorBytes d a 0 n s.generateMask.incSeq = u at *
  have huv : u.variant = s.variant := by rw [hue]
  have huw : u.w = withSeq s.variant s.w (seqOf s.variant s.w + 1) := by rw [hue]
  have huq : seqOf u.variant u.w = (seqOf s.variant s.w + 1) % 2 ^ seqWidth s.variant := by
    rw [huv, huw, seqOf_withSeq]
  have hb : (n + m + 63) / 64 = 1 + (m + 63) / 64 := by omega
  constructor
  · have h1 : withSeq u.variant u.w (seqOf u.variant u.w + (m + 63) / 64) =
        withSeq s.variant s.w (seqOf s.variant s.w + (n + m + 63) / 64) := by
      rw [huq, huv, huw, withSeq_withSeq, ← withSeq_mod, Nat.mod_add_mod, withSeq_mod, hb,
        Nat.add_assoc]
    have h2 : (if m = 0 then u.mask
          else keystreamBlock u.variant u.w (seqOf u.variant u.w + (m + 63) / 64 - 1)) =
        keystreamBlock s.variant s.w (seqOf s.variant s.w + (n + m + 63) / 64 - 1) := by
      rw [huq, huv, huw, hb]
      split_ifs with hz
      · subst hz
        rw [hue]
        simp
      · rw [keystreamBlock_withSeq, Nat.add_sub_assoc (by omega), ← keystreamBlock_mod,
          Nat.mod_add_mod, keystreamBlock_mod]
        congr 1
        omega
    have h3 : u.status.orWrap
          (decide (2 ^ seqWidth u.variant ≤ seqOf u.variant u.w + (m + 63) / 64)) =
        s.status.orWrap
          (decide (2 ^ seqWidth s.variant ≤ seqOf s.variant s.w + (n + m + 63) / 64)) := by
      have hus : u.status = s.status.orWrap
          (decide (2 ^ seqWidth s.variant ≤ seqOf s.variant s.w + 1)) := by rw [hue]
      rw [huq, huv, hb, hus, Status.orWrap_orWrap, wrap_add, Nat.add_assoc]
    rw [h1, h2, h3] at he
    rw [if_neg (by omega : ¬ n + m = 0)]
    refine he.trans ?_
    rw [hue]
  · refine hst.append ⟨fun k hk => ?_, hs.outside⟩
    rw [hs.inside k hk, huq, huv, huw, keystreamByte_withSeq]
    congr 1
    obtain rfl : n = 64 := by omega
    unfold keystreamByte
    rw [show (64 * ((seqOf s.variant s.w + 1) % 2 ^ seqWidth s.variant) + k) / 64 =
        (seqOf s.variant s.w + 1) % 2 ^ seqWidth s.variant + k / 64 by omega,
      show (64 * seqOf s.variant s.w + (64 + k)) / 64 = seqOf s.variant s.w + 1 + k / 64 by omega,
      ← keystreamBlock_mod, Nat.mod_add_mod, keystreamBlock_mod]
    congr 1
    omega

theorem applySeqLoop_result (d a L fuel i : Nat) (s : State) (hf : (L - i + 63) / 64 ≤ fuel) :
    SeqResult (d + i) (a + i) (L - i) s (applySeqLoop d a L fuel i s) := by
  induction fuel generalizing i s with
  | zero =>
    rw [show L - i = 0 by omega]
    exact SeqResult.zero _ _ s
  | succ fuel ih =>
    by_cases hi : i < L
    · have h := ih (i + min 64 (L - i))
        (xorBytes (d + i) (a + i) 0 (min 64 (L - i)) s.generateMask.incSeq) (by omega)
      rw [← Nat.add_assoc, ← Nat.add_assoc] at h
      have := h.cons (by omega) (by omega) (by omega)
      rw [show min 64 (L - i) + (L - (i + min 64 (L - i))) = L - i by omega] at this
      simpa only [applySeqLoop, if_pos hi] using this
    · rw [show L - i = 0 by omega]
      simpa only [applySeqLoop, if_neg hi] using SeqResult.zero _ _ s

/-- `ApplySeq` (R194, R197, R208). -/
theorem applySeq_result (d a L : Nat) (s : State) : SeqResult d a L s (applySeq d a L s) := by
  simpa [applySeq] using applySeqLoop_result d a L ((L + 63) / 64) 0 s (by simp)

theorem applySeqLoop_bufOk {s : State} (h : s.BufOk) (d a L fuel i : Nat)
    (hd : d + L ≤ s.params.bufSize) : (applySeqLoop d a L fuel i s).BufOk := by
  induction fuel generalizing i s with
  | zero => exact h
  | succ fuel ih =>
    simp only [applySeqLoop]
    split_ifs with hi
    · have h1 : s.generateMask.incSeq.BufOk := h.of_eq (by simp) (by simp)
      have h2 := xorBytes_bufOk h1 (d + i) (a + i) 0 (n := min 64 (L - i)) (by simp; omega)
      refine ih h2 _ ?_
      rw [xorBytes_eq]
      simpa using hd
    · exact h

/-! ### The seeked forms (R199, R202) -/

/-- The block of the last byte, or of the offset when there is no byte (R202). -/
def lastBlock (off L : Nat) : Nat := if L = 0 then off / 64 else (off + L - 1) / 64

/-- What the seeked byte loop leaves when its next byte is byte `p` of the key stream (R202). -/
structure SeekResult (d a n p : Nat) (s t : State) : Prop where
  eq : t = { s with
    w := withSeq s.variant s.w (lastBlock p n)
    mask := keystreamBlock s.variant s.w (lastBlock p n)
    status := s.status.orWrap (decide (2 ^ seqWidth s.variant ≤ lastBlock p n))
    buf := t.buf }
  stream : Streamed d a n (fun i => keystreamByte s.variant s.w (p + i)) s t

/-- The state of the seeked loop between bytes: the mask is that of the sequence. -/
def AtMask (s : State) : Prop := s.mask = keystreamBlock s.variant s.w (seqOf s.variant s.w)

theorem atMask_generateMask (s : State) : AtMask s.generateMask := by
  simp [AtMask, ← permute_words]

/-- The block-end test of the loop (R199), with `p` the position of the next byte: the sequence and
the mask become those of that byte's block. -/
theorem atBlockEnd_eq (s : State) (idx : Nat) (hidx : idx ≤ 64) (hm : AtMask s) :
    s.atBlockEnd idx = { s with
      w := withSeq s.variant s.w ((64 * seqOf s.variant s.w + idx) / 64)
      mask := keystreamBlock s.variant s.w ((64 * seqOf s.variant s.w + idx) / 64)
      status := s.status.orWrap
        (decide (2 ^ seqWidth s.variant ≤ (64 * seqOf s.variant s.w + idx) / 64)) } := by
  unfold State.atBlockEnd
  split_ifs with h
  · subst h
    have h := wrap_succ s.variant _ (seqOf_lt s.variant s.w)
    rw [show (64 * seqOf s.variant s.w + 64) / 64 = seqOf s.variant s.w + 1 by omega]
    ext1 <;> simp [withSeq_mod, h, keystreamBlock]
  · have h := Nat.not_le.2 (seqOf_lt s.variant s.w)
    rw [show (64 * seqOf s.variant s.w + idx) / 64 = seqOf s.variant s.w by omega]
    ext1 <;> simp [withSeq_seqOf, h]
    exact hm

/-- One turn of the seeked loop: one byte, at position `p` of the key stream. -/
theorem seekByte (d a idx j : Nat) (s : State) (hidx : idx ≤ 64) (hm : AtMask s)
    (hj : j = if idx = 64 then 0 else idx) :
    SeekResult d a 1 (64 * seqOf s.variant s.w + idx) s ((s.atBlockEnd idx).memWrite d
      ((s.atBlockEnd idx).memRead a ^^^ maskByte (s.atBlockEnd idx).mask j)) := by
  have hp : (64 * seqOf s.variant s.w + idx) % 64 = j := by split_ifs at hj <;> omega
  rw [atBlockEnd_eq s idx hidx hm]
  generalize 64 * seqOf s.variant s.w + idx = p at *
  refine ⟨by simp [lastBlock, State.memWrite], ⟨fun i hi => ?_, fun b hb => ?_⟩⟩
  · obtain rfl : i = 0 := by omega
    simp only [Nat.add_zero]
    rw [if_neg (by omega), State.memRead_memWrite, if_pos rfl, keystreamByte, hp]
    rfl
  · rw [State.memRead_memWrite, if_neg (by omega)]
    rfl

/-- A byte and then the seeked result of the `n` bytes after it. -/
theorem SeekResult.cons {d a n p : Nat} {s u t : State} (hn : 0 < n)
    (h1 : SeekResult d a 1 p s u)
    (h2 : SeekResult (d + 1) (a + 1) n (64 * seqOf u.variant u.w + (p % 64 + 1)) u t) :
    SeekResult d a (1 + n) p s t := by
  obtain ⟨hue, hst⟩ := h1
  obtain ⟨he, hs⟩ := h2
  have h0 : lastBlock p 1 = p / 64 := by simp [lastBlock]
  rw [h0] at hue
  have huv : u.variant = s.variant := by rw [hue]
  have huw : u.w = withSeq s.variant s.w (p / 64) := by rw [hue]
  have huq : seqOf u.variant u.w = p / 64 % 2 ^ seqWidth s.variant := by
    rw [huv, huw, seqOf_withSeq]
  have hb : lastBlock p (1 + n) = p / 64 + (p % 64 + n) / 64 := by
    rw [lastBlock, if_neg (by omega)]
    omega
  have hb2 : lastBlock (64 * seqOf u.variant u.w + (p % 64 + 1)) n =
      p / 64 % 2 ^ seqWidth s.variant + (p % 64 + n) / 64 := by
    rw [huq, lastBlock, if_neg (by omega)]
    omega
  constructor
  · rw [hb2, huv, huw, withSeq_withSeq, keystreamBlock_withSeq, ← withSeq_mod,
      ← keystreamBlock_mod, Nat.mod_add_mod, withSeq_mod, keystreamBlock_mod] at he
    have h3 : u.status.orWrap (decide (2 ^ seqWidth s.variant ≤
          p / 64 % 2 ^ seqWidth s.variant + (p % 64 + n) / 64)) =
        s.status.orWrap (decide (2 ^ seqWidth s.variant ≤ lastBlock p (1 + n))) := by
      have hus : u.status = s.status.orWrap (decide (2 ^ seqWidth s.variant ≤ p / 64)) := by
        rw [hue]
      rw [hb, hus, Status.orWrap_orWrap, wrap_add]
    rw [h3] at he
    rw [hb] at he ⊢
    refine he.trans ?_
    rw [hue]
  · refine hst.append ⟨fun k hk => ?_, hs.outside⟩
    rw [hs.inside k hk, huq, huv, huw, keystreamByte_withSeq]
    congr 1
    unfold keystreamByte
    rw [show (64 * (p / 64 % 2 ^ seqWidth s.variant) + (p % 64 + 1) + k) / 64 =
        p / 64 % 2 ^ seqWidth s.variant + (p % 64 + 1 + k) / 64 by omega,
      show (p + (1 + k)) / 64 = p / 64 + (p % 64 + 1 + k) / 64 by omega,
      ← keystreamBlock_mod, Nat.mod_add_mod, keystreamBlock_mod]
    congr 1
    omega

/-- The byte loop from index `idx` of the block of the sequence (R199): the bytes from that position on
are streamed. -/
theorem applySeekLoop_result (d a n idx : Nat) (s : State) (hidx : idx ≤ 64) (hm : AtMask s)
    (hn : 0 < n) :
    SeekResult d a n (64 * seqOf s.variant s.w + idx) s (applySeekLoop d a n idx s) := by
  induction n generalizing d a idx s with
  | zero => omega
  | succ n ih =>
    simp only [applySeekLoop]
    generalize hj : (if idx = 64 then 0 else idx) = j
    have h1 := seekByte d a idx j s hidx hm hj.symm
    generalize (s.atBlockEnd idx).memWrite d
      ((s.atBlockEnd idx).memRead a ^^^ maskByte (s.atBlockEnd idx).mask j) = u at *
    have hj64 : j < 64 := by split_ifs at hj <;> omega
    have hp : (64 * seqOf s.variant s.w + idx) % 64 = j := by split_ifs at hj <;> omega
    rcases Nat.eq_zero_or_pos n with rfl | hn
    · exact h1
    · have hu : AtMask u := by
        rw [h1.eq, AtMask]
        simp only [seqOf_withSeq, keystreamBlock_mod, keystreamBlock_withSeq]
      have h2 := ih (d + 1) (a + 1) (j + 1) u (by omega) hu hn
      rw [← hp] at h2
      rw [Nat.add_comm n 1]
      exact h1.cons hn (hp ▸ h2)

/-- `ApplySeek` (R199, R202, R203): the bytes at positions `off` up, the sequence and the mask of the
last byte's block, whatever the sequence was before. -/
theorem applySeekAt_result (d a L off : Nat) (s : State) :
    SeekResult d a L off s (applySeekAt d a L off s) := by
  have hm : AtMask (s.setSeq (off / 64)).generateMask := atMask_generateMask _
  have hse : (s.setSeq (off / 64)).generateMask = { s with
      w := withSeq s.variant s.w (off / 64)
      mask := keystreamBlock s.variant s.w (off / 64)
      status := s.status.orWrap (decide (2 ^ seqWidth s.variant ≤ off / 64)) } := by
    ext1 <;> simp [keystreamBlock]
  unfold applySeekAt
  generalize (s.setSeq (off / 64)).generateMask = u at *
  rcases Nat.eq_zero_or_pos L with rfl | hL
  · exact ⟨by simp [applySeekLoop, lastBlock, hse], by
      simp only [applySeekLoop]
      exact (Streamed.refl_zero d a _ s).congr rfl (by rw [hse])⟩
  · have h := applySeekLoop_result d a L (off % 64) u (by omega) hm hL
    have huv : u.variant = s.variant := by rw [hse]
    have huw : u.w = withSeq s.variant s.w (off / 64) := by rw [hse]
    have huq : seqOf u.variant u.w = off / 64 % 2 ^ seqWidth s.variant := by
      rw [huv, huw, seqOf_withSeq]
    obtain ⟨he, hs⟩ := h
    have hb : lastBlock off L = off / 64 + (off % 64 + L - 1) / 64 := by
      rw [lastBlock, if_neg (by omega)]
      omega
    have hb2 : lastBlock (64 * seqOf u.variant u.w + off % 64) L =
        off / 64 % 2 ^ seqWidth s.variant + (off % 64 + L - 1) / 64 := by
      rw [huq, lastBlock, if_neg (by omega)]
      omega
    constructor
    · rw [hb2, huv, huw, withSeq_withSeq, keystreamBlock_withSeq, ← withSeq_mod,
        ← keystreamBlock_mod, Nat.mod_add_mod, withSeq_mod, keystreamBlock_mod] at he
      have h3 : u.status.orWrap (decide (2 ^ seqWidth s.variant ≤
            off / 64 % 2 ^ seqWidth s.variant + (off % 64 + L - 1) / 64)) =
          s.status.orWrap (decide (2 ^ seqWidth s.variant ≤ lastBlock off L)) := by
        have hus : u.status = s.status.orWrap (decide (2 ^ seqWidth s.variant ≤ off / 64)) := by
          rw [hse]
        rw [hb, hus, Status.orWrap_orWrap, wrap_add]
      rw [h3] at he
      rw [hb] at he ⊢
      refine he.trans ?_
      rw [hse]
    · have hs' := hs.congr (s' := s) (by rw [hse]) rfl
      refine ⟨fun k hk => ?_, hs'.outside⟩
      rw [hs'.inside k hk, huq, huv, huw, keystreamByte_withSeq]
      congr 1
      unfold keystreamByte
      rw [show (64 * (off / 64 % 2 ^ seqWidth s.variant) + off % 64 + k) / 64 =
          off / 64 % 2 ^ seqWidth s.variant + (off % 64 + k) / 64 by omega,
        show (off + k) / 64 = off / 64 + (off % 64 + k) / 64 by omega,
        ← keystreamBlock_mod, Nat.mod_add_mod, keystreamBlock_mod]
      congr 1
      omega

theorem applySeekLoop_bufOk {s : State} (h : s.BufOk) (d a n idx : Nat)
    (hd : d + n ≤ s.params.bufSize) : (applySeekLoop d a n idx s).BufOk := by
  induction n generalizing d a idx s with
  | zero => exact h
  | succ n ih =>
    have hb : (s.atBlockEnd idx).params = s.params ∧ (s.atBlockEnd idx).buf = s.buf := by
      unfold State.atBlockEnd
      split_ifs <;> simp
    have h1 := (h.of_eq hb.1 hb.2).memWrite (a := d) (by rw [hb.1]; omega)
    simp only [applySeekLoop]
    exact ih (h1 _) _ _ _ (by simp only [State.memWrite_params, hb.1]; omega)

theorem applySeekAt_bufOk {s : State} (h : s.BufOk) (d : Word) (a L off : Nat)
    (hd : rangeOk s.params d L = true) : (applySeekAt d.toNat a L off s).BufOk := by
  have h1 : (s.setSeq (off / 64)).generateMask.BufOk := h.of_eq (by simp) (by simp)
  rcases (rangeOk_iff _ _ _).1 hd with rfl | hd
  · exact h1
  · exact applySeekLoop_bufOk h1 _ _ _ _ (by simpa using hd)

/-! ### What a stream leaves of the words -/

theorem applySeq_params (d a L : Nat) (s : State) : (applySeq d a L s).params = s.params := by
  rw [(applySeq_result d a L s).eq]

theorem applySeq_variant (d a L : Nat) (s : State) : (applySeq d a L s).variant = s.variant := by
  rw [(applySeq_result d a L s).eq]

theorem applySeq_w (d a L : Nat) (s : State) : (applySeq d a L s).w =
    withSeq s.variant s.w (seqOf s.variant s.w + (L + 63) / 64) := by
  rw [(applySeq_result d a L s).eq]

theorem applySeekAt_params (d a L off : Nat) (s : State) :
    (applySeekAt d a L off s).params = s.params := by
  rw [(applySeekAt_result d a L off s).eq]

theorem applySeekAt_variant (d a L off : Nat) (s : State) :
    (applySeekAt d a L off s).variant = s.variant := by
  rw [(applySeekAt_result d a L off s).eq]

theorem applySeekAt_w (d a L off : Nat) (s : State) :
    (applySeekAt d a L off s).w = withSeq s.variant s.w (lastBlock off L) := by
  rw [(applySeekAt_result d a L off s).eq]

end Sys2Proof.Machine
end

