-- ==== Sys2Proof/Laws/Decode.lean ====
section
/-! SUPPORT. The fields of a command word and the opcode map, as the decoder and the encoder use them
(30_encoding.md R100 to R109). -/

namespace Sys2Proof

/-- An OP the map knows is legal, and is the code of the command it names (R105). -/
theorem commandOf_some {op : BitVec 8} {v : Variant} {i : Instr} (h : commandOf op v = some i) :
    opcodeOf i = op ∧ (∀ v', i = .init v' → v' = v) ∧ op ∈ legalOps := by
  unfold commandOf at h
  iterate 13
    refine (ite_eq_iff.1 h).elim (fun h => ?_) (fun h => ?_)
    · obtain ⟨ho, h⟩ := h
      cases h
      subst ho
      exact ⟨rfl, fun v' hv => by cases hv <;> rfl, by decide⟩
    replace h := h.2
  cases h

/-- The map knows exactly the 13 codes (R105, R106). -/
theorem commandOf_none {op : BitVec 8} {v : Variant} : commandOf op v = none ↔ op ∉ legalOps := by
  constructor
  · intro h hm
    simp only [legalOps, List.mem_cons, List.not_mem_nil, or_false] at hm
    rcases hm with h' | h' | h' | h' | h' | h' | h' | h' | h' | h' | h' | h' | h' <;> subst h' <;>
      cases h
  · intro h
    cases hc : commandOf op v with
    | none => rfl
    | some i => exact absurd (commandOf_some hc).2.2 h

/-- The three fields are all of the word (R100). -/
theorem toWord_ofWord (c : Word) : (CmdFields.ofWord c).toWord = c := by
  simp only [CmdFields.toWord, CmdFields.ofWord]
  ext k hk
  simp only [BitVec.getElem_append, BitVec.getElem_extractLsb']
  split_ifs <;> (rw [← BitVec.getLsbD_eq_getElem]; congr 1; omega)

theorem ofWord_op (c : Word) : (CmdFields.ofWord c).op = c.extractLsb' 0 8 := rfl

theorem ofWord_rsvd (c : Word) : (CmdFields.ofWord c).rsvd = c.extractLsb' 9 23 := rfl

theorem bit_cases (b : BitVec 1) : b = 0#1 ∨ b = 1#1 := by
  revert b
  decide

/-- V is bit 8 of the word (R100). -/
theorem ofWord_v (c : Word) : (CmdFields.ofWord c).v = 1#1 ↔ c.getLsbD 8 = true := by
  simp only [CmdFields.ofWord]
  constructor
  · intro h
    simpa using congrArg (fun x => x.getLsbD 0) h
  · intro h
    ext k hk
    obtain rfl : k = 0 := by omega
    simpa using h

end Sys2Proof
end

