-- ==== Sys2Proof/Laws/Exec.lean ====
section
/-! SUPPORT. What each command can do: its result where its ranges fit, and one lemma for all commands
that says what none of them changes. -/

namespace Sys2Proof.Machine

open Sys2Proof

seal permute

theorem rangeOk_of_le {p : Params} {base : Word} {n : Nat} (h : base.toNat + n ≤ p.bufSize) :
    rangeOk p base n = true := (rangeOk_iff p base n).2 (.inr h)

theorem rangeOk_zero (p : Params) (base : Word) : rangeOk p base 0 = true := rfl

/-! ### The commands that read BUF -/

theorem execSetKey_runs (s : State)
    (h : rangeOk s.params s.operands.srcAddr (keyBytesRead s.operands.length.toNat) = true) :
    exec .setKey s = .next (State.complete { s with
      w := packKey s.variant s.operands.length.toNat
        (s.memReadBytes s.operands.srcAddr.toNat (keyBytesRead s.operands.length.toNat)) s.w } .ok) := by
  simp only [exec, execSetKey, h, Bool.not_true, Bool.false_eq_true, if_false]

theorem execSetNonce_runs (s : State)
    (h : rangeOk s.params s.operands.srcAddr
      (nonceBytesRead s.variant s.operands.length.toNat) = true) :
    exec .setNonce s = .next (State.complete { s with
      w := packNonce s.variant (s.memReadBytes s.operands.srcAddr.toNat
        (nonceBytesRead s.variant s.operands.length.toNat)) s.w } .ok) := by
  simp only [exec, execSetNonce, h, Bool.not_true, Bool.false_eq_true, if_false]

theorem execPermuteBuf_runs (s : State)
    (hs : rangeOk s.params s.operands.srcAddr 64 = true)
    (hd : rangeOk s.params s.operands.dstAddr 64 = true) :
    exec .permuteBuf s = .next ((State.memWriteBytes
      { s with mask := permute (wordsOfBytes (s.memReadBytes s.operands.srcAddr.toNat 64)) }
      s.operands.dstAddr.toNat
      (permute (wordsOfBytes (s.memReadBytes s.operands.srcAddr.toNat 64))).toList).complete .ok) := by
  simp only [exec, execPermuteBuf, hs, hd, Bool.not_true, Bool.false_eq_true, if_false]

/-! ### The apply commands -/

/-- What APPLY and APPLY_IP leave where they run (R194, R197, R208). -/
theorem applySeq_eq (d a L : Nat) (s : State) (hL : L ≠ 0) :
    applySeq d a L s = { s with
      w := withSeq s.variant s.w (seqOf s.variant s.w + (L + 63) / 64)
      mask := keystreamBlock s.variant s.w (seqOf s.variant s.w + (L + 63) / 64 - 1)
      status := s.status.orWrap
        (decide (2 ^ seqWidth s.variant ≤ seqOf s.variant s.w + (L + 63) / 64))
      buf := (applySeq d a L s).buf } := by
  simpa only [if_neg hL] using (applySeq_result d a L s).eq

theorem execApply_runs (s : State) (hL : s.operands.length.toNat ≠ 0)
    (ha : s.operands.srcAddr ≠ nullAddr)
    (hs : s.operands.srcAddr.toNat + s.operands.length.toNat ≤ s.params.bufSize)
    (hd : s.operands.dstAddr.toNat + s.operands.length.toNat ≤ s.params.bufSize) :
    exec .apply s = .next ((applySeq s.operands.dstAddr.toNat s.operands.srcAddr.toNat
      s.operands.length.toNat s).complete .ok) := by
  simp only [exec, execApply, rangeOk_of_le hs, rangeOk_of_le hd, hL, ha, or_self, if_false,
    Bool.not_true, Bool.false_eq_true]

theorem execApplyIp_runs (s : State) (hL : s.operands.length.toNat ≠ 0)
    (ha : s.operands.srcAddr ≠ nullAddr)
    (hs : s.operands.srcAddr.toNat + s.operands.length.toNat ≤ s.params.bufSize) :
    exec .applyIp s = .next ((applySeq s.operands.srcAddr.toNat s.operands.srcAddr.toNat
      s.operands.length.toNat s).complete .ok) := by
  simp only [exec, execApplyIp, rangeOk_of_le hs, hL, ha, or_self, if_false,
    Bool.not_true, Bool.false_eq_true]

theorem execApplySeek_runs (s : State)
    (hs : rangeOk s.params s.operands.srcAddr s.operands.length.toNat = true)
    (hd : rangeOk s.params s.operands.dstAddr s.operands.length.toNat = true) :
    exec .applySeek s = .next ((applySeekAt s.operands.dstAddr.toNat s.operands.srcAddr.toNat
      s.operands.length.toNat s.operands.offset s).complete .ok) := by
  simp only [exec, execApplySeek, hs, hd, if_false, Bool.not_true, Bool.false_eq_true]

theorem execApplySeekIp_runs (s : State)
    (hs : rangeOk s.params s.operands.srcAddr s.operands.length.toNat = true) :
    exec .applySeekIp s = .next ((applySeekAt s.operands.srcAddr.toNat s.operands.srcAddr.toNat
      s.operands.length.toNat s.operands.offset s).complete .ok) := by
  simp only [exec, execApplySeekIp, hs, if_false, Bool.not_true, Bool.false_eq_true]

/-! ### All commands -/

/-- The commands that use SetSeq or IncSeq (R164). -/
def usesSequence : Instr → Bool
  | .setSeq | .incSeq | .apply | .applyIp | .applySeek | .applySeekIp => true
  | .nop | .init _ | .setKey | .setNonce | .getSeq | .genMask | .permuteBuf => false

/-- The commands that write BUF bytes (R261). -/
def writesBuf : Instr → Bool
  | .permuteBuf | .apply | .applyIp | .applySeek | .applySeekIp => true
  | .nop | .init _ | .setKey | .setNonce | .setSeq | .getSeq | .incSeq | .genMask => false

/-- What a command may do to the state before its completion, and what it leaves alone. -/
structure Effect (i : Instr) (s r : State) : Prop where
  /-- only the words, variant, mask, operand registers, WRAP and BUF can change. -/
  frame : r = { s with
    w := r.w, variant := r.variant, mask := r.mask, regs := r.regs
    status := s.status.orWrap r.status.wrap, buf := r.buf }
  /-- VARIANT is written by INIT only, which zeroes the words and the mask (R24, R150). -/
  variant : r.variant = s.variant ∧ (∀ v, i ≠ .init v) ∨ ∃ v, i = .init v ∧
    r.w = Vector.replicate 16 0#32 ∧ r.mask = Vector.replicate 64 0#8 ∧ r.variant = v
  /-- the commands that write no state word (R22). -/
  words : (i = .nop ∨ i = .getSeq ∨ i = .genMask ∨ i = .permuteBuf) → r.w = s.w
  /-- only the commands that use the sequence change it (R164). -/
  seq : usesSequence i = false → (∀ v, i ≠ .init v) → seqOf r.variant r.w = seqOf s.variant s.w
  /-- only SET_NONCE and INIT change nonce words (R164). -/
  nonce : i ≠ .setNonce → (∀ v, i ≠ .init v) → ∀ k (h : k < 16), 13 ≤ k →
    (k = 13 → s.variant = .rfc7539) → r.w[k] = s.w[k]
  /-- only GET_SEQ writes operand registers (R28). -/
  regs : i ≠ .getSeq → r.regs = s.regs
  /-- only the commands that use the sequence set WRAP (R163). -/
  wrap : usesSequence i = false → r.status = s.status
  /-- the commands that write no BUF byte (R70). -/
  buf : writesBuf i = false → r.buf = s.buf
  /-- BUF stays canonical and inside its size (R79). -/
  bufOk : s.BufOk → r.BufOk

/-- A state is an effect of a command on itself, unless the command is INIT. -/
theorem Effect.refl {i : Instr} (h : ∀ v, i ≠ .init v) (s : State) : Effect i s s where
  frame := by simp
  variant := .inl ⟨rfl, h⟩
  words _ := rfl
  seq _ _ := rfl
  nonce _ _ _ _ _ _ := rfl
  regs _ := rfl
  wrap _ := rfl
  buf _ := rfl
  bufOk h := h

/-- The effect of a command that writes words, and no word of the sequence or nonce it must not. -/
theorem Effect.ofWords {i : Instr} {s : State} {w : Words} (hi : ∀ v, i ≠ .init v)
    (hw : ¬ (i = .nop ∨ i = .getSeq ∨ i = .genMask ∨ i = .permuteBuf))
    (hs : usesSequence i = false → seqOf s.variant w = seqOf s.variant s.w)
    (hn : i ≠ .setNonce → ∀ k (h : k < 16), 13 ≤ k → (k = 13 → s.variant = .rfc7539) →
      w[k] = s.w[k])
    (b : Bool) (hb : usesSequence i = false → b = false) :
    Effect i s { s with w := w, status := s.status.orWrap b } where
  frame := by cases hw : s.status.wrap <;> cases b <;> simp [Status.orWrap, hw]
  variant := .inl ⟨rfl, hi⟩
  words h := absurd h hw
  seq h _ := hs h
  nonce h _ := hn h
  regs _ := rfl
  wrap h := by simp [hb h]
  buf _ := rfl
  bufOk h := h.of_eq rfl rfl

/-- The effect of a command that streams bytes (R197, R202): the sequence words, the mask, WRAP, BUF. -/
theorem Effect.ofStream {i : Instr} {s r : State} {n : Nat} {m : Mask} {b : Bool}
    (hi : usesSequence i = true) (hb : writesBuf i = true)
    (h : r = { s with
      w := withSeq s.variant s.w n, mask := m, status := s.status.orWrap b, buf := r.buf })
    (hok : s.BufOk → r.BufOk) : Effect i s r := by
  have hinit : ∀ v, i ≠ .init v := by rintro v rfl; cases hi
  have hv : r.variant = s.variant := by rw [h]
  have hw : r.w = withSeq s.variant s.w n := by rw [h]
  refine ⟨?_, .inl ⟨hv, hinit⟩, ?_, ?_, ?_, ?_, ?_, ?_, hok⟩
  · refine h.trans ?_
    have hm : r.mask = m := by rw [h]
    have hr : r.regs = s.regs := by rw [h]
    have hs : r.status.wrap = (s.status.wrap || b) := by rw [h]; rfl
    rw [hv, hw, hm, hr, hs]
    cases hq : s.status.wrap <;> cases b <;> simp [Status.orWrap, hq]
  · rintro (rfl | rfl | rfl | rfl) <;> cases hi
  · intro hf
    rw [hi] at hf
    cases hf
  · intro _ _ k hk h13 hk13
    rw [hw]
    refine getElem_withSeq_of_ne _ _ _ _ hk (by omega) ?_
    by_cases h' : k = 13
    · exact .inr (hk13 h')
    · exact .inl h'
  · intro _
    rw [h]
  · intro hf
    rw [hi] at hf
    cases hf
  · intro hf
    rw [hb] at hf
    cases hf

/-- The shape of every command: an effect and a completion with cause 0, or nothing and a completion
with cause 3 or 4 (R235, R236). -/
theorem exec_shape (i : Instr) (s : State) :
    (∃ r, exec i s = .next (r.complete .ok) ∧ Effect i s r) ∨
    (∃ c, (c = .srcRange ∨ c = .dstRange) ∧ exec i s = .next (s.complete c)) := by
  have wordsOnly : ∀ {w : Words}, ({ s with w := w } : State) =
      { s with w := w, status := s.status.orWrap false } := by simp
  cases i with
  | nop => exact .inl ⟨s, rfl, Effect.refl (by simp) s⟩
  | init v =>
    refine .inl ⟨_, rfl, ?_, .inr ⟨v, rfl, rfl, rfl, rfl⟩, by simp, by simp, by simp, fun _ => rfl,
      fun _ => rfl, fun _ => rfl, fun h => h.of_eq rfl rfl⟩
    simp
  | setKey =>
    simp only [exec, execSetKey]
    split_ifs
    · exact .inr ⟨_, .inl rfl, rfl⟩
    · refine .inl ⟨_, rfl, ?_⟩
      rw [wordsOnly]
      refine Effect.ofWords (by simp) (by simp) (fun _ => ?_) (fun _ k h h13 _ => ?_) _ (by simp)
      · unfold seqOf
        rw [getElem_packKey_of_ge _ _ _ _ 12 (by decide) (by decide),
          getElem_packKey_of_ge _ _ _ _ 13 (by decide) (by decide)]
      · exact getElem_packKey_of_ge _ _ _ _ k h (by omega)
  | setNonce =>
    simp only [exec, execSetNonce]
    split_ifs
    · exact .inr ⟨_, .inl rfl, rfl⟩
    · refine .inl ⟨_, rfl, ?_⟩
      rw [wordsOnly]
      exact Effect.ofWords (by simp) (by simp) (fun _ => seqOf_packNonce _ _ _)
        (fun h => absurd rfl h) _ (by simp)
  | setSeq =>
    refine .inl ⟨_, rfl, ?_⟩
    refine Effect.ofWords (by simp) (by simp) (by simp [usesSequence]) (fun _ k h h13 hk => ?_) _
      (by simp [usesSequence])
    refine getElem_withSeq_of_ne _ _ _ _ h (by omega) ?_
    by_cases h' : k = 13
    · exact .inr (hk h')
    · exact .inl h'
  | getSeq =>
    refine .inl ⟨_, rfl, ?_, .inl ⟨rfl, by simp⟩, fun _ => rfl, fun _ _ => rfl,
      fun _ _ _ _ _ _ => rfl, by simp, fun _ => rfl, fun _ => rfl, fun h => h.of_eq rfl rfl⟩
    simp
  | incSeq =>
    refine .inl ⟨_, rfl, ?_⟩
    refine Effect.ofWords (by simp) (by simp) (by simp [usesSequence]) (fun _ k h h13 hk => ?_) _
      (by simp [usesSequence])
    refine getElem_withSeq_of_ne _ _ _ _ h (by omega) ?_
    by_cases h' : k = 13
    · exact .inr (hk h')
    · exact .inl h'
  | genMask =>
    refine .inl ⟨_, rfl, ?_, .inl ⟨by simp, by simp⟩, by simp, by simp, by simp, by simp, by simp,
      by simp, fun h => h.of_eq (by simp) (by simp)⟩
    ext1 <;> simp
  | permuteBuf =>
    simp only [exec, execPermuteBuf]
    split_ifs with h1 h2
    · exact .inr ⟨_, .inl rfl, rfl⟩
    · exact .inr ⟨_, .inr rfl, rfl⟩
    · refine .inl ⟨_, rfl, ?_⟩
      generalize permute _ = m
      have hd : s.operands.dstAddr.toNat + 64 ≤ s.params.bufSize := by
        have := (rangeOk_iff _ _ _).1 (by simpa using h2)
        omega
      have he := State.memWriteBytes_eq ({ s with mask := m } : State)
        s.operands.dstAddr.toNat m.toList
      have hok : s.BufOk → (({ s with mask := m } : State).memWriteBytes
          s.operands.dstAddr.toNat m.toList).BufOk := fun h =>
        State.BufOk.memWriteBytes (s := { s with mask := m }) (h.of_eq rfl rfl) _ (by simpa using hd)
      generalize ({ s with mask := m } : State).memWriteBytes _ _ = r at *
      have hw : r.w = s.w := by rw [he]
      refine ⟨?_, .inl ⟨by rw [he], by simp⟩, fun _ => by rw [he], fun _ _ => by rw [he],
        fun _ _ _ _ _ _ => by simp only [hw], fun _ => by rw [he], fun _ => by rw [he],
        fun h => absurd h (by decide), hok⟩
      refine he.trans ?_
      rw [he]
      simp
  | apply =>
    simp only [exec, execApply]
    split_ifs with h0 h1 h2
    · exact .inl ⟨s, rfl, Effect.refl (by simp) s⟩
    · exact .inr ⟨_, .inl rfl, rfl⟩
    · exact .inr ⟨_, .inr rfl, rfl⟩
    · refine .inl ⟨_, rfl, Effect.ofStream rfl rfl (applySeq_eq _ _ _ s (by tauto)) fun h => ?_⟩
      have hd := (rangeOk_iff _ _ _).1 (by simpa using h2)
      exact applySeqLoop_bufOk h _ _ _ _ _ (by tauto)
  | applyIp =>
    simp only [exec, execApplyIp]
    split_ifs with h0 h1
    · exact .inl ⟨s, rfl, Effect.refl (by simp) s⟩
    · exact .inr ⟨_, .inl rfl, rfl⟩
    · refine .inl ⟨_, rfl, Effect.ofStream rfl rfl (applySeq_eq _ _ _ s (by tauto)) fun h => ?_⟩
      have hd := (rangeOk_iff _ _ _).1 (by simpa using h1)
      exact applySeqLoop_bufOk h _ _ _ _ _ (by tauto)
  | applySeek =>
    simp only [exec, execApplySeek]
    split_ifs with h1 h2
    · exact .inr ⟨_, .inl rfl, rfl⟩
    · exact .inr ⟨_, .inr rfl, rfl⟩
    · exact .inl ⟨_, rfl, Effect.ofStream rfl rfl (applySeekAt_result _ _ _ _ s).eq fun h =>
        applySeekAt_bufOk h _ _ _ _ (by simpa using h2)⟩
  | applySeekIp =>
    simp only [exec, execApplySeekIp]
    split_ifs with h1
    · exact .inr ⟨_, .inl rfl, rfl⟩
    · exact .inl ⟨_, rfl, Effect.ofStream rfl rfl (applySeekAt_result _ _ _ _ s).eq fun h =>
        applySeekAt_bufOk h _ _ _ _ (by simpa using h1)⟩

/-! ### What a command looks at -/

/-- The elements a command can read: all but CTRL, STATUS and the model's own fields. -/
structure SameCore (s s' : State) : Prop where
  params : s'.params = s.params
  w : s'.w = s.w
  variant : s'.variant = s.variant
  mask : s'.mask = s.mask
  regs : s'.regs = s.regs
  engine : s'.engine = s.engine
  buf : s'.buf = s.buf

theorem SameCore.memRead {s s' : State} (h : SameCore s s') (a : Nat) :
    s'.memRead a = s.memRead a := State.memRead_congr h.buf a

theorem SameCore.memReadBytes {s s' : State} (h : SameCore s s') (a n : Nat) :
    s'.memReadBytes a n = s.memReadBytes a n := State.memReadBytes_congr h.buf a n

theorem SameCore.operands {s s' : State} (h : SameCore s s') : s'.operands = s.operands := by
  simp only [State.operands, h.engine, h.regs]

theorem SameCore.memWrite {s s' : State} (h : SameCore s s') (a : Nat) (v : Byte) :
    SameCore (s.memWrite a v) (s'.memWrite a v) :=
  ⟨h.params, h.w, h.variant, h.mask, h.regs, h.engine, by simp only [State.memWrite_buf, h.buf]⟩

theorem SameCore.memWriteBytes {s s' : State} (h : SameCore s s') (a : Nat) (vs : List Byte) :
    SameCore (s.memWriteBytes a vs) (s'.memWriteBytes a vs) := by
  induction vs generalizing s s' a with
  | nil => exact h
  | cons v vs ih => exact ih (h.memWrite a v) _

theorem SameCore.generateMask {s s' : State} (h : SameCore s s') :
    SameCore s.generateMask s'.generateMask := by
  refine ⟨?_, ?_, ?_, ?_, ?_, ?_, ?_⟩ <;> simp [h.params, h.w, h.variant, h.regs, h.engine, h.buf]

theorem SameCore.setSeq {s s' : State} (h : SameCore s s') (n : Nat) :
    SameCore (s.setSeq n) (s'.setSeq n) :=
  ⟨h.params, by simp only [State.setSeq_w, h.w, h.variant], h.variant, h.mask, h.regs, h.engine,
    h.buf⟩

theorem SameCore.incSeq {s s' : State} (h : SameCore s s') : SameCore s.incSeq s'.incSeq :=
  ⟨h.params, by simp only [State.incSeq_w, h.w, h.variant], h.variant, h.mask, h.regs, h.engine,
    h.buf⟩

theorem SameCore.complete {s s' : State} (h : SameCore s s') (c : Cause) :
    SameCore (s.complete c) (s'.complete c) :=
  ⟨h.params, h.w, h.variant, h.mask, h.regs, rfl, h.buf⟩

theorem SameCore.xorBytes {s s' : State} (h : SameCore s s') (d a j n : Nat) :
    SameCore (xorBytes d a j n s) (xorBytes d a j n s') := by
  induction n generalizing d a j s s' with
  | zero => exact h
  | succ n ih =>
    simp only [Machine.xorBytes, h.memRead, h.mask]
    exact ih (h.memWrite _ _) _ _ _

theorem SameCore.applySeqLoop {s s' : State} (h : SameCore s s') (d a L fuel i : Nat) :
    SameCore (applySeqLoop d a L fuel i s) (applySeqLoop d a L fuel i s') := by
  induction fuel generalizing i s s' with
  | zero => exact h
  | succ fuel ih =>
    simp only [Machine.applySeqLoop]
    split_ifs
    · exact ih (h.generateMask.incSeq.xorBytes _ _ _ _) _
    · exact h

theorem SameCore.applySeekLoop {s s' : State} (h : SameCore s s') (d a n idx : Nat) :
    SameCore (applySeekLoop d a n idx s) (applySeekLoop d a n idx s') := by
  induction n generalizing d a idx s s' with
  | zero => exact h
  | succ n ih =>
    have hb : SameCore (s.atBlockEnd idx) (s'.atBlockEnd idx) := by
      unfold State.atBlockEnd
      split_ifs
      · exact h.incSeq.generateMask
      · exact h
    simp only [Machine.applySeekLoop, hb.memRead, hb.mask]
    exact ih (hb.memWrite _ _) _ _ _

theorem SameCore.applySeekAt {s s' : State} (h : SameCore s s') (d a L off : Nat) :
    SameCore (applySeekAt d a L off s) (applySeekAt d a L off s') :=
  (h.setSeq _).generateMask.applySeekLoop _ _ _ _

/-- A command does the same to two states that agree on what it can read (R271). -/
theorem SameCore.exec {s s' : State} (h : SameCore s s') (i : Instr) :
    ∃ r r' c, exec i s = .next (r.complete c) ∧ exec i s' = .next (r'.complete c) ∧
      SameCore r r' := by
  cases i with
  | nop => exact ⟨_, _, _, rfl, rfl, h⟩
  | init v => exact ⟨_, _, _, rfl, rfl, h.params, rfl, rfl, rfl, h.regs, h.engine, h.buf⟩
  | setKey =>
    simp only [Machine.exec, execSetKey, h.operands, h.params, h.memReadBytes, h.variant, h.w]
    split_ifs
    · exact ⟨_, _, _, rfl, rfl, h⟩
    · exact ⟨_, _, _, rfl, rfl, rfl, rfl, rfl, h.mask, h.regs, h.engine, h.buf⟩
  | setNonce =>
    simp only [Machine.exec, execSetNonce, h.operands, h.params, h.memReadBytes, h.variant, h.w]
    split_ifs
    · exact ⟨_, _, _, rfl, rfl, h⟩
    · exact ⟨_, _, _, rfl, rfl, rfl, rfl, rfl, h.mask, h.regs, h.engine, h.buf⟩
  | setSeq => exact ⟨_, _, _, rfl, by rw [← h.operands]; rfl, h.setSeq _⟩
  | getSeq =>
    refine ⟨_, _, _, rfl, rfl, h.params, h.w, h.variant, h.mask, ?_, h.engine, h.buf⟩
    simp only [h.regs, h.w, h.variant]
  | incSeq => exact ⟨_, _, _, rfl, rfl, h.incSeq⟩
  | genMask => exact ⟨_, _, _, rfl, rfl, h.generateMask⟩
  | permuteBuf =>
    simp only [Machine.exec, execPermuteBuf, h.operands, h.params, h.memReadBytes]
    generalize permute _ = m
    split_ifs
    · exact ⟨_, _, _, rfl, rfl, h⟩
    · exact ⟨_, _, _, rfl, rfl, h⟩
    · refine ⟨_, _, _, rfl, rfl, SameCore.memWriteBytes ?_ _ _⟩
      exact ⟨rfl, h.w, h.variant, rfl, h.regs, h.engine, h.buf⟩
  | apply =>
    simp only [Machine.exec, execApply, h.operands, h.params]
    split_ifs
    · exact ⟨_, _, _, rfl, rfl, h⟩
    · exact ⟨_, _, _, rfl, rfl, h⟩
    · exact ⟨_, _, _, rfl, rfl, h⟩
    · exact ⟨_, _, _, rfl, rfl, h.applySeqLoop _ _ _ _ _⟩
  | applyIp =>
    simp only [Machine.exec, execApplyIp, h.operands, h.params]
    split_ifs
    · exact ⟨_, _, _, rfl, rfl, h⟩
    · exact ⟨_, _, _, rfl, rfl, h⟩
    · exact ⟨_, _, _, rfl, rfl, h.applySeqLoop _ _ _ _ _⟩
  | applySeek =>
    simp only [Machine.exec, execApplySeek, h.operands, h.params]
    split_ifs
    · exact ⟨_, _, _, rfl, rfl, h⟩
    · exact ⟨_, _, _, rfl, rfl, h⟩
    · exact ⟨_, _, _, rfl, rfl, h.applySeekAt _ _ _ _⟩
  | applySeekIp =>
    simp only [Machine.exec, execApplySeekIp, h.operands, h.params]
    split_ifs
    · exact ⟨_, _, _, rfl, rfl, h⟩
    · exact ⟨_, _, _, rfl, rfl, h.applySeekAt _ _ _ _⟩

end Sys2Proof.Machine
end

