-- ==== Sys2Proof/Laws/PerInstr.lean ====
section
/-! SUPPORT. Statements made once for each command: `EncodedWord`, what the word of a command looks
like (30_encoding.md R100 to R105). -/

namespace Sys2Proof.Laws.EncodedWord

open Sys2Proof

/-- The word of the command has legal fields, OP in bits 7:0, V clear unless it is INIT rfc's, and every
reserved bit clear (R100, R102, R103, R105). -/
def Statement (i : Instr) : Prop :=
  (CmdFields.ofWord (encode i)).wellFormed = true ∧
  (encode i).extractLsb' 0 8 = opcodeOf i ∧
  ((encode i).getLsbD 8 = true ↔ i = .init .rfc7539) ∧
  (encode i).extractLsb' 9 23 = 0#23

theorem nop : Statement .nop := by unfold Statement; decide
theorem init (v : Variant) : Statement (.init v) := by cases v <;> unfold Statement <;> decide
theorem setKey : Statement .setKey := by unfold Statement; decide
theorem setNonce : Statement .setNonce := by unfold Statement; decide
theorem setSeq : Statement .setSeq := by unfold Statement; decide
theorem getSeq : Statement .getSeq := by unfold Statement; decide
theorem incSeq : Statement .incSeq := by unfold Statement; decide
theorem genMask : Statement .genMask := by unfold Statement; decide
theorem permuteBuf : Statement .permuteBuf := by unfold Statement; decide
theorem apply : Statement .apply := by unfold Statement; decide
theorem applyIp : Statement .applyIp := by unfold Statement; decide
theorem applySeek : Statement .applySeek := by unfold Statement; decide
theorem applySeekIp : Statement .applySeekIp := by unfold Statement; decide

end Sys2Proof.Laws.EncodedWord
end

