-- ==== Sys2Proof/Laws/Step.lean ====
section
/-! SUPPORT. What a step can do, said once: the engine's turn, a host write, and the step as their
union. -/

namespace Sys2Proof.Machine

open Sys2Proof

seal permute

/-! ### The engine's turn -/

theorem isBusy_iff (s : State) : s.isBusy = true ↔ ∃ cmd ops, s.engine = .busy cmd ops := by
  unfold State.isBusy
  cases h : s.engine <;> simp

theorem isBusy_of_busy {s : State} {cmd : Word} {ops : Operands} (h : s.engine = .busy cmd ops) :
    s.isBusy = true := (isBusy_iff s).2 ⟨cmd, ops, h⟩

theorem isBusy_of_idle {s : State} (h : s.engine = .idle) : s.isBusy = false := by
  simp [State.isBusy, h]

theorem idle_of_not_isBusy {s : State} (h : ¬ s.isBusy = true) : s.engine = .idle := by
  cases he : s.engine with
  | idle => rfl
  | busy cmd ops => exact absurd (isBusy_of_busy he) h

theorem operands_of_busy {s : State} {cmd : Word} {ops : Operands} (h : s.engine = .busy cmd ops) :
    s.operands = ops := by simp [State.operands, h]

/-- A busy engine's turn always ends in a completion (R235, R273). -/
inductive TurnResult (cmd : Word) (s : State) : State → Prop where
  /-- the word is no command (R232, R233). -/
  | rejected {e : DecodeError} : decode cmd = .error e →
      TurnResult cmd s (s.complete (causeOfDecodeError e))
  /-- the command ran. -/
  | ran {i : Instr} {r : State} : decode cmd = .ok i → exec i s = .next (r.complete .ok) →
      Effect i s r → TurnResult cmd s (r.complete .ok)
  /-- the command reported a range error (R236). -/
  | failed {i : Instr} {c : Cause} : decode cmd = .ok i → c = .srcRange ∨ c = .dstRange →
      exec i s = .next (s.complete c) → TurnResult cmd s (s.complete c)

theorem engineTurn_idle {s : State} (h : s.engine = .idle) : s.engineTurn = .next s := by
  simp [State.engineTurn, h]

theorem engineTurn_busy {s : State} {cmd : Word} {ops : Operands} (h : s.engine = .busy cmd ops) :
    ∃ t, s.engineTurn = .next t ∧ TurnResult cmd s t := by
  simp only [State.engineTurn, h]
  cases hd : decode cmd with
  | error e => exact ⟨_, rfl, .rejected hd⟩
  | ok i =>
    rcases exec_shape i s with ⟨r, hr, he⟩ | ⟨c, hc, hr⟩
    · exact ⟨_, hr, .ran hd hr he⟩
    · exact ⟨_, hr, .failed hd hc hr⟩

/-- No turn stops. -/
theorem engineTurn_next (s : State) : ∃ t, s.engineTurn = .next t := by
  cases h : s.engine with
  | idle => exact ⟨s, engineTurn_idle h⟩
  | busy cmd ops => exact (engineTurn_busy h).imp fun _ h => h.1

theorem TurnResult.engine {cmd : Word} {s t : State} (h : TurnResult cmd s t) : t.engine = .idle := by
  cases h <;> rfl

theorem TurnResult.done {cmd : Word} {s t : State} (h : TurnResult cmd s t) :
    t.status.done = true := by
  cases h <;> rfl

/-- What no turn changes: the parameters, CTRL, the draws and the environment's lists. -/
theorem TurnResult.keeps {cmd : Word} {s t : State} (h : TurnResult cmd s t) :
    t.params = s.params ∧ t.ie = s.ie ∧ t.draws = s.draws ∧ t.inbox = s.inbox ∧
      t.replies = s.replies := by
  cases h with
  | rejected => exact ⟨rfl, rfl, rfl, rfl, rfl⟩
  | failed => exact ⟨rfl, rfl, rfl, rfl, rfl⟩
  | ran _ _ he =>
    have h := he.frame
    simp only [State.complete_params, State.complete_ie, State.complete_draws,
      State.complete_inbox, State.complete_replies]
    refine ⟨?_, ?_, ?_, ?_, ?_⟩ <;> rw [h]

theorem TurnResult.bufOk {cmd : Word} {s t : State} (h : TurnResult cmd s t) (hs : s.BufOk) :
    t.BufOk := by
  cases h with
  | rejected => exact hs.of_eq rfl rfl
  | failed => exact hs.of_eq rfl rfl
  | ran _ _ he => exact (he.bufOk hs).of_eq rfl rfl

/-! ### The host's writes -/

/-- What a host write can do to the block (R30 to R44, R73). -/
inductive WriteResult (s : State) : State → Prop where
  | ignored : WriteResult s s
  | ctrl (b : Bool) : WriteResult s { s with ie := b }
  | status (v : Word) : WriteResult s { s with status := s.status.writeOneToClear v }
  | accepted (c : Word) : s.engine = .idle → WriteResult s (s.accept c)
  | operands (o : Operands) : s.engine = .idle → WriteResult s { s with regs := o }
  | stored (m : Memory) : s.engine = .idle → (s.BufOk → State.BufOk { s with buf := m }) →
      WriteResult s { s with buf := m }
  | dropped (cmd : Word) (ops : Operands) : s.engine = .busy cmd ops → WriteResult s s.dropWrite

/-- What no host write changes: the parameters, the draws, the words, the variant, the mask and the
environment's lists (R44, R80). -/
theorem WriteResult.keeps {s t : State} (h : WriteResult s t) :
    t.params = s.params ∧ t.draws = s.draws ∧ t.w = s.w ∧ t.variant = s.variant ∧
      t.mask = s.mask ∧ t.inbox = s.inbox ∧ t.replies = s.replies := by
  cases h <;> exact ⟨rfl, rfl, rfl, rfl, rfl, rfl, rfl⟩

theorem writeOperands_result (s : State) (o : Operands) : WriteResult s (s.writeOperands o) := by
  unfold State.writeOperands
  split_ifs with h
  · obtain ⟨cmd, ops, h⟩ := (isBusy_iff s).1 h
    exact .dropped cmd ops h
  · exact .operands o (idle_of_not_isBusy h)

theorem regWrite_result (s : State) (r : Reg) (v : Word) : WriteResult s (s.regWrite r v) := by
  cases r <;> simp only [State.regWrite] <;> try exact writeOperands_result s _
  case ctrl => exact .ctrl _
  case status => exact .status v
  case cmd =>
    split_ifs with h
    · obtain ⟨cmd, ops, h⟩ := (isBusy_iff s).1 h
      exact .dropped cmd ops h
    · exact .accepted v (idle_of_not_isBusy h)
  all_goals exact .ignored

theorem writeLane_eq (s : State) (a : Nat) (v : Word) (st : BitVec 4) (j : Nat) :
    s.writeLane a v st j = { s with buf := (s.writeLane a v st j).buf } := by
  unfold State.writeLane
  split_ifs <;> rfl

@[simp] theorem writeLane_params (s : State) (a : Nat) (v : Word) (st : BitVec 4) (j : Nat) :
    (s.writeLane a v st j).params = s.params := by
  rw [writeLane_eq]

/-- `BUF_SIZE` is a power of two of at least 64: a bus word whose first byte is in BUF lies in BUF. -/
theorem laneBase_lt {p : Params} {a : Nat} (h : a < p.bufSize) : laneBase a + 4 ≤ p.bufSize := by
  have h4 : p.bufSize = 4 * 2 ^ (4 + p.bufLog.val) := by
    rw [Params.bufSize, show 6 + p.bufLog.val = 2 + (4 + p.bufLog.val) by omega, Nat.pow_add]
  unfold laneBase
  omega

theorem writeLane_bufOk {s : State} (h : s.BufOk) {a : Nat} (ha : a < s.params.bufSize) (v : Word)
    (st : BitVec 4) {j : Nat} (hj : j < 4) : (s.writeLane a v st j).BufOk := by
  have := laneBase_lt ha
  unfold State.writeLane
  split_ifs
  · exact h.memWrite (by omega) _
  · exact h

theorem memRead_writeLane (s : State) (a : Nat) (v : Word) (st : BitVec 4) (j b : Nat) :
    (s.writeLane a v st j).memRead b =
      if b = laneBase a + j ∧ st.getLsbD j = true then byteOf v j else s.memRead b := by
  unfold State.writeLane
  split_ifs with h1 h2 h2
  · rw [State.memRead_memWrite, if_pos h2.1]
  · rw [State.memRead_memWrite, if_neg fun h => h2 ⟨h, h1⟩]
  · exact absurd h2.2 h1
  · rfl

/-- The lanes of an idle BUF write, in order (R73). -/
theorem bufWrite_idle {s : State} (h : s.engine = .idle) (a : Nat) (v : Word) (st : BitVec 4) :
    s.bufWrite a v st = (((s.writeLane a v st 0).writeLane a v st 1).writeLane a v st 2).writeLane
      a v st 3 := by
  simp [State.bufWrite, isBusy_of_idle h]

theorem bufWrite_busy {s : State} {cmd : Word} {ops : Operands} (h : s.engine = .busy cmd ops)
    (a : Nat) (v : Word) (st : BitVec 4) : s.bufWrite a v st = s.dropWrite := by
  simp [State.bufWrite, isBusy_of_busy h]

theorem writeLanes_eq (s : State) (a : Nat) (v : Word) (st : BitVec 4) :
    (((s.writeLane a v st 0).writeLane a v st 1).writeLane a v st 2).writeLane a v st 3 =
      { s with buf := ((((s.writeLane a v st 0).writeLane a v st 1).writeLane a v st 2).writeLane
        a v st 3).buf } := by
  rw [writeLane_eq (((s.writeLane a v st 0).writeLane a v st 1).writeLane a v st 2),
    writeLane_eq ((s.writeLane a v st 0).writeLane a v st 1), writeLane_eq (s.writeLane a v st 0),
    writeLane_eq s]

theorem bufWrite_result (s : State) (a : Nat) (v : Word) (st : BitVec 4)
    (ha : a < s.params.bufSize) : WriteResult s (s.bufWrite a v st) := by
  cases h : s.engine with
  | idle =>
    rw [bufWrite_idle h, writeLanes_eq]
    refine .stored _ h fun hs => ?_
    rw [← writeLanes_eq]
    have h1 := writeLane_bufOk hs ha v st (j := 0) (by decide)
    have h2 := writeLane_bufOk h1 (a := a) (by simpa using ha) v st (j := 1) (by decide)
    have h3 := writeLane_bufOk h2 (a := a) (by simpa using ha) v st (j := 2) (by decide)
    exact writeLane_bufOk h3 (by simpa using ha) v st (by decide)
  | busy cmd ops =>
    rw [bufWrite_busy h]
    exact .dropped cmd ops h

theorem targetOf_buf {p : Params} {addr a : Nat} (h : targetOf p addr = some (.buf a)) :
    a < p.bufSize := by
  unfold targetOf at h
  split_ifs at h with h1 h2
  · cases h
  · cases h
    omega

/-- A bus write that reaches the block (R71, R73). -/
theorem targetWrite_result (s : State) {addr : Nat} {g : Target} (h : targetOf s.params addr = some g)
    (v : Word) (st : BitVec 4) : WriteResult s (s.targetWrite g v st) := by
  cases g with
  | reg o => exact regWrite_result s _ v
  | buf a => exact bufWrite_result s a v st (targetOf_buf h)

/-- The register map ignores bits [1:0] of an offset (R71). -/
theorem regAt_congr {o o' : Nat} (h : o / 4 * 4 = o' / 4 * 4) : regAt o = regAt o' := by
  simp only [regAt, h]

/-- A register write neither sees nor changes the events still to come. -/
theorem regWrite_inbox (s : State) (es : List Event) (r : Reg) (v : Word) :
    State.regWrite { s with inbox := es } r v =
      { s.regWrite r v with inbox := es, replies := s.replies } := by
  have hb : State.isBusy { s with inbox := es } = s.isBusy := rfl
  cases r <;> simp only [State.regWrite, State.writeOperands, hb] <;> try split
  all_goals rfl

theorem writeLane_inbox (s : State) (es : List Event) (a : Nat) (v : Word) (st : BitVec 4) (j : Nat) :
    State.writeLane { s with inbox := es } a v st j = { s.writeLane a v st j with inbox := es } := by
  unfold State.writeLane
  split <;> rfl

/-- A BUF write neither sees nor changes the events still to come. -/
theorem bufWrite_inbox (s : State) (es : List Event) (a : Nat) (v : Word) (st : BitVec 4) :
    State.bufWrite { s with inbox := es } a v st =
      { s.bufWrite a v st with inbox := es, replies := s.replies } := by
  have hb : State.isBusy { s with inbox := es } = s.isBusy := rfl
  unfold State.bufWrite
  rw [hb]
  split
  · rfl
  · simp only [writeLane_inbox]
    rw [writeLanes_eq]

/-! ### The step -/

/-- Everything a step can do. -/
inductive StepResult (s : State) : State → Prop where
  /-- an idle engine has its turn, with no event left. -/
  | rest : s.inbox = [] → s.engine = .idle → StepResult s s
  /-- a busy engine has its turn, with no event left. -/
  | lastTurn {cmd : Word} {ops : Operands} {t : State} : s.inbox = [] → s.engine = .busy cmd ops →
      TurnResult cmd s t → StepResult s t
  /-- the event `engineTurn` finds an idle engine. -/
  | idleTurn {es : List Event} : s.inbox = .engineTurn :: es → s.engine = .idle →
      StepResult s { s with inbox := es }
  /-- the event `engineTurn` finds a busy engine. -/
  | turn {cmd : Word} {ops : Operands} {es : List Event} {t : State} :
      s.inbox = .engineTurn :: es → s.engine = .busy cmd ops →
      TurnResult cmd { s with inbox := es } t → StepResult s t
  /-- a reset (R260, R261). -/
  | reset {es : List Event} : s.inbox = .reset :: es →
      StepResult s (State.hardReset { s with inbox := es })
  /-- a bus read (R72). -/
  | read {addr : Nat} {g : Target} {es : List Event} : s.inbox = .busRead addr :: es →
      targetOf s.params addr = some g →
      StepResult s { s with inbox := es, replies := s.targetRead g :: s.replies }
  /-- a bus write. -/
  | write {addr : Nat} {v : Word} {st : BitVec 4} {g : Target} {es : List Event} {t : State} :
      s.inbox = .busWrite addr v st :: es → targetOf s.params addr = some g →
      t = State.targetWrite { s with inbox := es } g v st → WriteResult { s with inbox := es } t →
      StepResult s t

theorem targetRead_inbox (s : State) (es : List Event) (g : Target) :
    State.targetRead { s with inbox := es } g = s.targetRead g := by
  cases g with
  | reg o => simp only [State.targetRead]; cases regAt o <;> rfl
  | buf a => rfl

theorem step_result {s t : State} (h : step s = .next t) : StepResult s t := by
  unfold step at h
  split at h
  · rename_i hi
    cases he : s.engine with
    | idle =>
      rw [engineTurn_idle he] at h
      cases h
      exact .rest hi he
    | busy cmd ops =>
      obtain ⟨u, hu, hr⟩ := engineTurn_busy he
      rw [hu] at h
      cases h
      exact .lastTurn hi he hr
  · rename_i e es hi
    cases e with
    | engineTurn =>
      simp only [State.takeEvent] at h
      cases he : s.engine with
      | idle =>
        rw [engineTurn_idle (s := { s with inbox := es }) he] at h
        cases h
        exact .idleTurn hi he
      | busy cmd ops =>
        obtain ⟨u, hu, hr⟩ := engineTurn_busy (s := { s with inbox := es }) he
        rw [hu] at h
        cases h
        exact .turn hi he hr
    | reset =>
      cases h
      exact .reset hi
    | busRead addr =>
      simp only [State.takeEvent, State.busRead] at h
      split at h
      · cases h
      · rename_i g hg
        cases h
        rw [targetRead_inbox]
        exact .read hi hg
    | busWrite addr v st =>
      simp only [State.takeEvent, State.busWrite] at h
      split at h
      · cases h
      · rename_i g hg
        cases h
        exact .write hi hg rfl (targetWrite_result { s with inbox := es } hg v st)

/-- A step answers while no event is left, or the next one is the block's own (R70). -/
theorem step_next_of_head {s : State} (h : ∀ e es, s.inbox = e :: es → e.inWindows s.params = true) :
    ∃ t, step s = .next t := by
  unfold step
  split
  · exact engineTurn_next s
  · rename_i e es hi
    have hw := h e es hi
    cases e with
    | engineTurn => exact engineTurn_next { s with inbox := es }
    | reset => exact ⟨_, rfl⟩
    | busRead addr =>
      obtain ⟨g, hg⟩ := Option.isSome_iff_exists.1 hw
      exact ⟨_, by simp only [State.takeEvent, State.busRead, hg]; rfl⟩
    | busWrite addr v st =>
      obtain ⟨g, hg⟩ := Option.isSome_iff_exists.1 hw
      exact ⟨_, by simp only [State.takeEvent, State.busWrite, hg]; rfl⟩

/-- A step while every event to come is the block's own (R70). -/
theorem step_next {s : State} (h : s.NoStray) : ∃ t, step s = .next t :=
  step_next_of_head fun e es hi => h e (by rw [hi]; exact List.mem_cons_self)

/-- A run of one step more. -/
theorem run_succ_of (M : Host.Core) {n : Nat} {s t : M.State} (h : M.step s = .next t) :
    M.run (n + 1) s = M.run n t := by
  simp only [Host.Core.run, h]

theorem run_succ {n : Nat} {s t : State} (h : step s = .next t) :
    Host.Core.run Sys2Proof.core (n + 1) s = Host.Core.run Sys2Proof.core n t :=
  run_succ_of Sys2Proof.core h

end Sys2Proof.Machine
end

