-- ==== Sys2Proof/Tests/Slice0.lean ====
section
/-! SUPPORT. Tests whose expected results come from spec/ (each names its rule or vector), and, for
every statement that has hypotheses, a witness: a concrete state and operands that meet them. -/

namespace Sys2Proof.Machine.Tests

open Sys2Proof

/-! ### Helpers -/

/-- After reset, with a variant, words and operands, and a byte string written at a BUF address. -/
def block (v : Variant) (w : Words) (o : Operands) (a : Nat) (bytes : List Byte) : State :=
  ({ State.reset with variant := v, w := w, regs := o } : State).memWriteBytes a bytes

/-- Operands for a source, a destination, a length, and offset and sequence 0. -/
def opsOf (src dst len : Word) : Operands := { Operands.zero with
  srcAddr := src
  dstAddr := dst
  length := len }

/-- An observation of the state after a command. -/
def after {α : Type} (i : Instr) (s : State) (f : State → α) : Option α :=
  match exec i s with
  | .next t => some (f t)
  | .fault _ => none
  | .refused _ => none

/-- An observation of the state after one step. -/
def afterStep {α : Type} (s : State) (f : State → α) : Option α :=
  match step s with
  | .next t => some (f t)
  | .fault _ => none
  | .refused _ => none

def zeroWords : Words := Vector.replicate 16 0#32

/-- The state of S1: RFC7539, key K32, nonce N9, sequence 1 (95_test_vectors.md S1). -/
def s1Words : Words := #v[0x61707865#32, 0x3320646e#32, 0x79622d32#32, 0x6b206574#32, 0x03020100#32,
  0x07060504#32, 0x0b0a0908#32, 0x0f0e0d0c#32, 0x13121110#32, 0x17161514#32, 0x1b1a1918#32,
  0x1f1e1d1c#32, 0x00000001#32, 0x09000000#32, 0x4a000000#32, 0x00000000#32]

/-- Words 0, 1, ..., 15 (V40.4). -/
def countWords : Words := Vector.ofFn fun k : Fin 16 => BitVec.ofNat 32 k.val

/-- After reset, running the command `i` with the operands `o`. -/
def running (i : Instr) (o : Operands) : State := State.reset.issued i o

/-! ### WellFormed: an ill-formed term for each check (R100, R103, R106, R107) -/

theorem test_ill_formed_op : (CmdFields.mk 0x09#8 0#1 0#23).opLegal = false ∧
    (CmdFields.mk 0x09#8 0#1 0#23).wellFormed = false := by decide
theorem test_ill_formed_rsvd : (CmdFields.mk 0x10#8 0#1 1#23).rsvdClear = false ∧
    (CmdFields.mk 0x10#8 0#1 1#23).wellFormed = false := by decide
theorem test_ill_formed_v : (CmdFields.mk 0x07#8 1#1 0#23).vLegal = false ∧
    (CmdFields.mk 0x07#8 1#1 0#23).wellFormed = false := by decide
theorem test_well_formed_init_rfc : (CmdFields.mk 0x01#8 1#1 0#23).wellFormed = true := by decide

/-! ### Decoding: the word of each command, from R105 -/

theorem test_decode_nop : decode 0x00000000#32 = .ok .nop := by rfl
theorem test_decode_init_djb : decode 0x00000001#32 = .ok (.init .djb) := by rfl
theorem test_decode_init_rfc : decode 0x00000101#32 = .ok (.init .rfc7539) := by rfl
theorem test_decode_setKey : decode 0x00000002#32 = .ok .setKey := by rfl
theorem test_decode_setNonce : decode 0x00000003#32 = .ok .setNonce := by rfl
theorem test_decode_setSeq : decode 0x00000004#32 = .ok .setSeq := by rfl
theorem test_decode_getSeq : decode 0x00000005#32 = .ok .getSeq := by rfl
theorem test_decode_incSeq : decode 0x00000006#32 = .ok .incSeq := by rfl
theorem test_decode_genMask : decode 0x00000007#32 = .ok .genMask := by rfl
theorem test_decode_permuteBuf : decode 0x00000008#32 = .ok .permuteBuf := by rfl
theorem test_decode_apply : decode 0x00000010#32 = .ok .apply := by rfl
theorem test_decode_applyIp : decode 0x00000011#32 = .ok .applyIp := by rfl
theorem test_decode_applySeek : decode 0x00000012#32 = .ok .applySeek := by rfl
theorem test_decode_applySeekIp : decode 0x00000013#32 = .ok .applySeekIp := by rfl

/-- V60.1: the words with cause 1. -/
theorem test_illegal_words : ∀ c ∈ [0x00000009#32, 0x0000000F#32, 0x00000014#32, 0x000000FF#32,
    0x000001FF#32, 0x000002FF#32], decode c = .error .illegalOpcode := by
  intro c h
  simp only [List.mem_cons, List.not_mem_nil, or_false] at h
  rcases h with rfl | rfl | rfl | rfl | rfl | rfl <;> rfl

/-- V60.1: the words with cause 2. -/
theorem test_reserved_words : ∀ c ∈ [0x00000107#32, 0x00000100#32, 0x00000200#32, 0x0000FF00#32,
    0x80000000#32, 0x80000010#32, 0x00000201#32], decode c = .error .reservedBits := by
  intro c h
  simp only [List.mem_cons, List.not_mem_nil, or_false] at h
  rcases h with rfl | rfl | rfl | rfl | rfl | rfl | rfl <;> rfl

theorem test_decodeTableWord : decodeTableWord 32 0x00000101 = some (.init .rfc7539) ∧
    decodeTableWord 32 0x00000102 = none := by decide

/-! ### The permutation -/

/-- V40.2 and G1: the quarter round. -/
theorem test_quarterRound_one :
    let x := quarterRound (zeroWords.set 0 1#32) 0 1 2 3
    (x[0], x[1], x[2], x[3]) = (0x10000001#32, 0x80808808#32, 0x01010110#32, 0x01000110#32) := by
  decide
theorem test_quarterRound_G1 :
    let x := quarterRound ((((zeroWords.set 4 0x11111111#32).set 5 0x01020304#32).set 6
      0x9b8d6f43#32).set 7 0x01234567#32) 4 5 6 7
    (x[4], x[5], x[6], x[7]) = (0xea2a92f4#32, 0xcb1cf8ce#32, 0x4581472e#32, 0x5881c4bb#32) := by
  decide

/-- V40.6: GEN_MASK on the state of S1. -/
theorem test_genMask : after .genMask (block .rfc7539 s1Words Operands.zero 0 []) (fun t =>
      (List.finRange 16).map fun k => t.regRead (.mask k)) =
    some [0xe4e7f110#32, 0x15593bd1#32, 0x1fdd0f50#32, 0xc47120a3#32, 0xc7f4d1c7#32, 0x0368c033#32,
      0x9aaa2204#32, 0x4e6cd4c3#32, 0x466482d2#32, 0x09aa9f07#32, 0x05d7c214#32, 0xa2028bd9#32,
      0xd19c12b5#32, 0xb94e16de#32, 0xe883d0cb#32, 0x4e3c50a2#32] := by decide +kernel

/-- V40.10: PERMUTE_BUF on overlapping ranges reads all 64 bytes before it writes. -/
theorem test_permuteBuf_overlap : after .permuteBuf
      (block .djb zeroWords (opsOf 0x400#32 0x404#32 0#32) 0x400 (serialize countWords).toList)
      (fun t => (t.memReadBytes 0x400 8, t.w)) =
    some ([0x00#8, 0x00#8, 0x00#8, 0x00#8, 0x81#8, 0x00#8, 0xe9#8, 0x48#8], zeroWords) := by
  decide +kernel

/-- V40.11: both range checks, the source first. -/
theorem test_permuteBuf_ranges :
    after .permuteBuf (block .djb zeroWords (opsOf 0xFFC1#32 0xFFC1#32 0#32) 0 [])
      (fun t => (t.status.cause, t.status.memerr)) = some (.srcRange, true) ∧
    after .permuteBuf (block .djb zeroWords (opsOf 0#32 0xFFC1#32 0#32) 0 [])
      (fun t => (t.status.cause, t.status.memerr)) = some (.dstRange, true) := by decide

/-! ### The state manager -/

/-- V41.1: INIT rfc. -/
theorem test_init : after (.init .rfc7539) (block .djb s1Words Operands.zero 0 [])
    (fun t => (t.statusWord, t.w)) = some (0x00000102#32, zeroWords) := by decide

/-- V41.3: a 5-byte DJB key. -/
theorem test_setKey_short : after .setKey (block .djb zeroWords (opsOf 0x100#32 0#32 5#32) 0x100
      [0x01#8, 0x02#8, 0x03#8, 0x04#8, 0x05#8]) (fun t => t.w.toList.take 12) =
    some [0x61707865#32, 0x3120646e#32, 0x79622d36#32, 0x6b206574#32, 0x04030201#32, 0x00000005#32,
      0#32, 0#32, 0x04030201#32, 0x00000005#32, 0#32, 0#32] := by decide

/-- V41.7: a 17-byte DJB key is a long key. -/
theorem test_setKey_long : after .setKey (block .djb zeroWords (opsOf 0x100#32 0#32 17#32) 0x100
      ((List.range 17).map (BitVec.ofNat 8))) (fun t => t.w.toList.take 12) =
    some [0x61707865#32, 0x3320646e#32, 0x79622d32#32, 0x6b206574#32, 0x03020100#32, 0x07060504#32,
      0x0b0a0908#32, 0x0f0e0d0c#32, 0x00000010#32, 0#32, 0#32, 0#32] := by decide

/-- V41.15 and V41.16: a 5-byte RFC nonce and a 12-byte DJB nonce. -/
theorem test_setNonce_rfc : after .setNonce (block .rfc7539 (zeroWords.set 12 7#32)
      (opsOf 0x200#32 0#32 5#32) 0x200 ((List.range 16).map fun j => BitVec.ofNat 8 (j + 1)))
      (fun t => t.w.toList.drop 12) =
    some [0x00000007#32, 0x04030201#32, 0x00000005#32, 0x00000000#32] := by decide
theorem test_setNonce_djb : after .setNonce (block .djb ((zeroWords.set 12 4#32).set 13 5#32)
      (opsOf 0x200#32 0#32 12#32) 0x200 ((List.range 12).map fun j => BitVec.ofNat 8 (j + 1)))
      (fun t => t.w.toList.drop 12) =
    some [0x00000004#32, 0x00000005#32, 0x04030201#32, 0x08070605#32] := by decide

/-- V41.10 and V41.11: SET_SEQ. -/
theorem test_setSeq_rfc : after .setSeq (block .rfc7539 s1Words
      { Operands.zero with seqLo := 2#32, seqHi := 1#32 } 0 [])
      (fun t => (t.w[12], t.w[13], t.status.wrap)) = some (2#32, 0x09000000#32, true) := by decide
theorem test_setSeq_djb : after .setSeq (block .djb zeroWords
      { Operands.zero with seqLo := 2#32, seqHi := 1#32 } 0 [])
      (fun t => (t.w[12], t.w[13], t.status.wrap)) = some (2#32, 1#32, false) := by decide

/-- V41.17: GET_SEQ in RFC7539 clears SEQ_HI. -/
theorem test_getSeq_rfc : after .getSeq (block .rfc7539 (s1Words.set 12 0xFFFFFFFF#32)
      { Operands.zero with seqHi := 0x0000DEAD#32 } 0 [])
      (fun t => (t.regRead .seqLo, t.regRead .seqHi)) = some (0xFFFFFFFF#32, 0#32) := by decide

/-- V41.12 and V41.13: INC_SEQ carries in DJB and wraps in RFC7539. -/
theorem test_incSeq_djb : after .incSeq (block .djb (zeroWords.set 12 0xFFFFFFFF#32) Operands.zero 0 [])
      (fun t => (t.w[12], t.w[13], t.status.wrap)) = some (0#32, 1#32, false) := by decide
theorem test_incSeq_rfc : after .incSeq (block .rfc7539 (s1Words.set 12 0xFFFFFFFF#32) Operands.zero
      0 []) (fun t => (t.w[12], t.w[13], t.status.wrap)) = some (0#32, 0x09000000#32, true) := by
  decide

/-! ### The stream applier -/

/-- V42.17: a destination one byte ahead. -/
theorem test_apply_overlap : after .apply (block .rfc7539 s1Words (opsOf 0x1000#32 0x1001#32 3#32)
      0x1000 [0x11#8, 0x22#8, 0x33#8, 0x00#8])
      (fun t => (t.memReadBytes 0x1000 4, seqOf t.variant t.w)) =
    some ([0x11#8, 0x01#8, 0xf0#8, 0x17#8], 2) := by decide +kernel

/-- V42.2: a null source. -/
theorem test_apply_null : after .apply (block .rfc7539 s1Words (opsOf 0#32 0x2000#32 10#32) 0 [])
      (fun t => (t.status.cause, t.w, t.buf)) = some (.ok, s1Words, []) := by decide

/-- V42.16: an in-place source range error leaves the sequence. -/
theorem test_applyIp_range : after .applyIp (block .rfc7539 s1Words (opsOf 0x10000#32 0#32 1#32) 0 [])
      (fun t => (t.status.cause, seqOf t.variant t.w)) = some (.srcRange, 1) := by decide

/-- V42.19, first bytes: APPLY_IP with nonce N0 of the first 8 bytes of PT. -/
theorem test_applyIp : after .applyIp (block .rfc7539 (s1Words.set 13 0#32)
      (opsOf 0x1000#32 0#32 8#32) 0x1000
      [0x4c#8, 0x61#8, 0x64#8, 0x69#8, 0x65#8, 0x73#8, 0x20#8, 0x61#8])
      (fun t => t.memReadBytes 0x1000 8) =
    some [0x6e#8, 0x2e#8, 0x35#8, 0x9a#8, 0x25#8, 0x68#8, 0xf9#8, 0x80#8] := by decide +kernel

/-- V42.7: APPLY_SEEK across a block boundary. -/
theorem test_applySeek : after .applySeek (block .rfc7539 (s1Words.set 12 99#32)
      { opsOf 0x1000#32 0x2000#32 2#32 with offsetLo := 63#32 } 0x1000 [0x00#8, 0x00#8])
      (fun t => (t.memReadBytes 0x2000 2, seqOf t.variant t.w, maskByte t.mask 0)) =
    some ([0xd4#8, 0x10#8], 1, 0x10#8) := by decide +kernel

/-- V42.16: a zero-length APPLY_SEEK has no destination range. -/
theorem test_applySeek_null : after .applySeek (block .rfc7539 s1Words
      { opsOf 0x1000#32 0x20000#32 0#32 with offsetLo := 640#32 } 0 [])
      (fun t => (t.status.cause, seqOf t.variant t.w, t.buf)) = some (.ok, 10, []) := by
  decide +kernel

/-- V42.20, first bytes: APPLY_SEEK_IP at offset 70 of the first 8 bytes of PT. -/
theorem test_applySeekIp : after .applySeekIp (block .rfc7539 s1Words
      { opsOf 0x1000#32 0#32 8#32 with offsetLo := 70#32 } 0x1000
      [0x4c#8, 0x61#8, 0x64#8, 0x69#8, 0x65#8, 0x73#8, 0x20#8, 0x61#8])
      (fun t => t.memReadBytes 0x1000 8) =
    some [0x15#8, 0x74#8, 0x34#8, 0x66#8, 0xb8#8, 0x6c#8, 0x83#8, 0x41#8] := by decide +kernel

/-- V42.21: NOP. -/
theorem test_nop : after .nop State.reset (fun t => t.statusWord) = some 0x00000002#32 := by decide

/-! ### Status, the port, reset and the step -/

/-- V60.2: STATUS after an illegal word in RFC7539, and after CLRSTAT. -/
theorem test_status_illegal :
    afterStep (({ State.reset with variant := .rfc7539 } : State).withFetchWord 32 0x09)
      (fun t => (t.statusWord, (t.regWrite .status 0x3E#32).statusWord)) =
    some (0x00001106#32, 0x00001100#32) := by decide

/-- V60.1: 0x80000010 is reserved. -/
theorem test_status_reserved :
    afterStep (State.reset.withFetchWord 32 0x80000010) (fun t => t.statusWord) =
      some 0x00002006#32 := by decide

/-- V60.3 and V60.6: writes to a busy block are dropped and set OVR. -/
theorem test_busy_write : let s := State.reset.accept 0x00000007#32
    (s.regWrite .cmd 6#32).statusWord = 0x00000011#32 ∧
    (s.regWrite .srcAddr 6#32).regs = Operands.zero ∧
    (s.bufWrite 4 6#32 0xF#4).buf = [] := by decide

/-- V70.1: the registers after reset. -/
theorem test_reset : State.reset.regRead .id = 0x43433230#32 ∧ State.reset.regRead .ctrl = 0#32 ∧
    State.reset.regRead .status = 0#32 ∧ State.reset.regRead (.word 15) = 0#32 ∧
    State.reset.regRead (.mask 15) = 0#32 ∧ State.reset.irq = false := by decide

/-- V70.2: a reset during APPLY draws the destination bytes only. -/
theorem test_reset_draws : let s := running .apply (opsOf 0x1000#32 0x2000#32 2#32)
    afterStep { s with inbox := [.reset], buf := [(0x1FFF, 1#8), (0x2001, 2#8)] }
      (fun t => (t.memRead 0x1FFF, t.memRead 0x2001, t.engine, t.draws)) =
    some (1#8, Config.drawnByte 1, .idle, 2) := by rfl

/-- R73: strobes select byte lanes of the aligned bus word. -/
theorem test_strobes : (State.reset.bufWrite 6 0x44332211#32 0b1010#4).buf =
    [(5, 0x22#8), (7, 0x44#8)] := by decide

/-- V60.5: irq follows IE and DONE. -/
theorem test_irq : let s : State := { State.reset with ie := true }
    after .nop s (fun t => (t.irq, (t.regWrite .status 2#32).irq)) = some (true, false) := by decide

/-- R119, R120: LOADNONCE writes two registers, the command, and waits. -/
theorem test_asm : Pseudo.events Params.vectors 0 (.loadNonce 0x200#32 12#32) =
    [.busWrite 0x40000010 0x200#32 0xF#4, .busWrite 0x40000018 12#32 0xF#4,
      .busWrite 0x4000000C 3#32 0xF#4, .engineTurn, .busRead 0x40000008] := by decide

/-! ### Witnesses: concrete states and operands that meet each statement's hypotheses -/

/-- A busy block: GEN_MASK has been accepted after reset. -/
def busyBlock : State := State.reset.accept 0x00000007#32

theorem witness_StepRunsLatchedCommand :
    busyBlock.engine = .busy 0x00000007#32 Operands.zero ∧ decode 0x00000007#32 = .ok .genMask ∧
    busyBlock.inbox = [] ∧ ({ busyBlock with inbox := [.engineTurn, .reset] } : State).inbox =
      .engineTurn :: [.reset] := ⟨rfl, rfl, rfl, rfl⟩

theorem witness_IdleEngineKeepsState : State.reset.engine = .idle ∧ State.reset.inbox = [] ∧
    ({ State.reset with inbox := [.engineTurn] } : State).inbox = .engineTurn :: [] :=
  ⟨rfl, rfl, rfl⟩

/-- The four addresses next to the windows lie outside; the ones at their ends are accepted, with a stray
event behind too. -/
theorem witness_StepStopsOnlyOutsideWindows :
    (∀ a ∈ [0x3FFFFFFF, 0x40000100, 0x4FFFFFFF, 0x50010000], targetOf Params.vectors a = none) ∧
    State.reset.inbox = [] ∧
    (∀ e ∈ [Event.busRead 0x40000000, .busRead 0x400000FF, .busWrite 0x5000FFFF 1#32 8#4, .reset],
      ({ State.reset with inbox := [e, .busRead 0x40000100] } : State).inbox =
        e :: [.busRead 0x40000100] ∧ e.inWindows Params.vectors = true) ∧
    ({ State.reset with inbox := [.busRead 0x400000FF, .busWrite 0x5000FFFF 1#32 8#4] } : State).NoStray := by
  refine ⟨by decide, rfl, by decide, ?_⟩
  unfold State.NoStray
  decide

theorem witness_StepKeepsInvariant : busyBlock.Inv ∧ ∃ t, step busyBlock = .next t :=
  ⟨⟨⟨List.Pairwise.nil, by decide⟩, rfl, rfl⟩, engineTurn_next busyBlock⟩

theorem witness_DecodingOrder :
    (0x000001FF#32).extractLsb' 0 8 ∉ legalOps ∧
    ((0x00000210#32).extractLsb' 0 8 ∈ legalOps ∧ (0x00000210#32).extractLsb' 9 23 ≠ 0#23) ∧
    ((0x00000110#32).extractLsb' 0 8 ∈ legalOps ∧ (0x00000110#32).getLsbD 8 = true ∧
      (0x00000110#32).extractLsb' 0 8 ≠ 0x01#8) ∧
    ((0x00000101#32).extractLsb' 0 8 ∈ legalOps ∧ (0x00000101#32).extractLsb' 9 23 = 0#23) := by
  decide

theorem witness_RejectedWordOnlyReports :
    (State.reset.accept 0x00000009#32).engine = .busy 0x00000009#32 Operands.zero ∧
    (State.reset.accept 0x00000009#32).TurnIsNext ∧
    ({ State.reset.accept 0x00000009#32 with inbox := [.engineTurn, .reset] } : State).TurnIsNext ∧
    (0x00000009#32).extractLsb' 0 8 ∉ legalOps ∧
    (State.reset.accept 0x80000010#32).engine = .busy 0x80000010#32 Operands.zero ∧
    (0x80000010#32).extractLsb' 0 8 ∈ legalOps ∧ (0x80000010#32).extractLsb' 9 23 ≠ 0#23 :=
  ⟨rfl, .inl rfl, .inr ⟨_, rfl⟩, by decide, rfl, by decide, by decide⟩

theorem witness_ErrorsArePrecise :
    after .setKey (running .setKey (opsOf 0xFFF0#32 0#32 17#32)) (fun t => t.status.cause) =
      some .srcRange := by decide

/-- Every command answers a next state; each clause about ranges is met at the last address that fits
and at the first that does not. -/
theorem witness_CauseOfEveryCommand :
    (∀ i, ∃ t, exec i (running i (opsOf 0xFFC0#32 0xFFC0#32 64#32)) = .next t) ∧
    0xFFC0 + 64 ≤ Params.vectors.bufSize ∧ ¬ 0xFFC1 + 64 ≤ Params.vectors.bufSize ∧
    0xFFE0 + min 40 32 ≤ Params.vectors.bufSize ∧ ¬ 0xFFE1 + min 40 32 ≤ Params.vectors.bufSize ∧
    0xFFF8 + min 12 8 ≤ Params.vectors.bufSize ∧ ¬ 0xFFF9 + min 12 8 ≤ Params.vectors.bufSize := by
  refine ⟨fun i => ?_, by decide, by decide, by decide, by decide, by decide, by decide⟩
  rcases exec_shape i (running i (opsOf 0xFFC0#32 0xFFC0#32 64#32)) with ⟨r, h, -⟩ | ⟨c, -, h⟩
  · exact ⟨_, h⟩
  · exact ⟨_, h⟩

/-- A completion and a reset that change CAUSE. -/
theorem witness_CauseWrittenOnlyAtCompletion :
    afterStep (State.reset.accept 0x00000009#32) (fun t => t.status.cause) = some .illegalOpcode ∧
    (State.reset.accept 0x00000009#32).status.cause = .ok ∧
    afterStep { State.reset with
        status := { Status.zero with cause := .dstRange }
        inbox := [.reset] }
      (fun t => t.status.cause) = some .ok := by decide

/-- An empty key, and one of 16 bytes that ends with BUF. -/
theorem witness_SetKeyShortPacking :
    (running .setKey (opsOf 0xFFFFFFFF#32 0#32 0#32)).variant = .djb ∧
    (running .setKey (opsOf 0xFFFFFFFF#32 0#32 0#32)).operands.length = 0#32 ∧
    (running .setKey (opsOf 0xFFF0#32 0#32 16#32)).operands.length.toNat ≤ 16 ∧
    (running .setKey (opsOf 0xFFF0#32 0#32 16#32)).operands.srcAddr.toNat +
      (running .setKey (opsOf 0xFFF0#32 0#32 16#32)).operands.length.toNat ≤
        Params.vectors.bufSize := by decide

/-- 17 bytes in DJB, more than 32 bytes whose first 32 end with BUF, and an empty RFC key. -/
theorem witness_SetKeyLongPacking :
    17 ≤ (running .setKey (opsOf 0#32 0#32 17#32)).operands.length.toNat ∧
    0xFFE0 + min (running .setKey (opsOf 0xFFE0#32 0#32 33#32)).operands.length.toNat 32 ≤
      Params.vectors.bufSize ∧
    ({ running .setKey (opsOf 0#32 0#32 0#32) with variant := .rfc7539 } : State).operands.length =
      0#32 := by decide

theorem witness_SetNoncePacking :
    0xFFF8 + min (running .setNonce (opsOf 0xFFF8#32 0#32 9#32)).operands.length.toNat 8 ≤
      Params.vectors.bufSize ∧
    0xFFF4 + min (running .setNonce (opsOf 0xFFF4#32 0#32 13#32)).operands.length.toNat 12 ≤
      Params.vectors.bufSize ∧
    (running .setNonce (opsOf 0xFFFFFFFF#32 0#32 0#32)).operands.length = 0#32 := by decide

/-- The two variants of SET_SEQ and INC_SEQ, with and without a wrap. -/
theorem witness_SequenceVariants :
    (running .setSeq Operands.zero).variant = .djb ∧
    ({ running .setSeq { Operands.zero with seqHi := 1#32 } with variant := .rfc7539 } : State).variant =
      .rfc7539 ∧
    after .incSeq (block .djb ((zeroWords.set 12 0xFFFFFFFF#32).set 13 0xFFFFFFFF#32) Operands.zero 0 [])
      (fun t => (seqOf t.variant t.w, t.status.wrap)) = some (0, true) := by decide

/-- A command that changes the sequence, INIT that zeroes it, and SET_NONCE that changes W[13]. -/
theorem witness_SequenceAndNonceWriters :
    after .incSeq (block .rfc7539 s1Words Operands.zero 0 []) (fun t => seqOf t.variant t.w) = some 2 ∧
    after (.init .djb) (block .rfc7539 s1Words Operands.zero 0 []) (fun t => seqOf t.variant t.w) =
      some 0 ∧
    after .setNonce (block .rfc7539 s1Words Operands.zero 0 []) (fun t => t.w[13]) = some 0#32 := by
  decide

theorem witness_WrapSetOnlyBySequenceCommands :
    let s : State := { running .incSeq Operands.zero with
      w := zeroWords.set 12 0xFFFFFFFF#32
      variant := .rfc7539 }
    afterStep s (fun t => (t.status.wrap, t.engine)) = some (true, .idle) ∧ s.status.wrap = false ∧
      s.inbox = [] := by decide

/-- INIT changes the variant and the words; a reset changes the words. -/
theorem witness_StateWordWriters :
    afterStep { running (.init .djb) Operands.zero with w := s1Words, variant := .rfc7539 }
      (fun t => (t.w, t.variant)) = some (zeroWords, .djb) ∧
    afterStep { State.reset with w := s1Words, inbox := [.reset] } (fun t => t.w) =
      some zeroWords := by decide

/-- Two blocks that differ in everything but BUF and the parameters. -/
theorem witness_RebuiltStateIsACopy :
    (block .rfc7539 s1Words Operands.zero 0 []).params = State.reset.params ∧
    ∀ a, (block .rfc7539 s1Words Operands.zero 0 []).memRead a = State.reset.memRead a :=
  ⟨rfl, fun _ => rfl⟩

theorem witness_QuarterRoundLines : (3 : Fin 16) ≠ 4 ∧ (3 : Fin 16) ≠ 9 ∧ (3 : Fin 16) ≠ 14 ∧
    (4 : Fin 16) ≠ 9 ∧ (4 : Fin 16) ≠ 14 ∧ (9 : Fin 16) ≠ 14 := by decide

theorem witness_PassOrderIsFree :
    List.Perm (α := Fin 16 × Fin 16 × Fin 16 × Fin 16)
      [(3, 7, 11, 15), (0, 4, 8, 12), (2, 6, 10, 14), (1, 5, 9, 13)]
      [(0, 4, 8, 12), (1, 5, 9, 13), (2, 6, 10, 14), (3, 7, 11, 15)] ∧
    List.Perm (α := Fin 16 × Fin 16 × Fin 16 × Fin 16)
      [(3, 4, 9, 14), (2, 7, 8, 13), (1, 6, 11, 12), (0, 5, 10, 15)]
      [(0, 5, 10, 15), (1, 6, 11, 12), (2, 7, 8, 13), (3, 4, 9, 14)] := by decide

theorem witness_PermuteBufWritesMask :
    let s := running .permuteBuf (opsOf 0xFFC0#32 0xFFC0#32 0#32)
    s.operands.srcAddr.toNat + 64 ≤ s.params.bufSize ∧
    s.operands.dstAddr.toNat + 64 ≤ s.params.bufSize ∧
    ¬ 0xFFC1 + 64 ≤ s.params.bufSize := by decide

/-- Words that differ in the sequence only, in both variants. -/
theorem witness_KeystreamIgnoresSequence :
    (∀ k (h : k < 16), k ≠ 12 → (k = 13 → Variant.djb = .rfc7539) →
      ((s1Words.set 12 7#32).set 13 9#32)[k] = s1Words[k]) ∧
    ∀ k (h : k < 16), k ≠ 12 → (k = 13 → Variant.rfc7539 = .rfc7539) →
      (s1Words.set 12 7#32)[k] = s1Words[k] := by decide

theorem witness_NullApplyIsNoOp :
    (running .apply (opsOf 0x1000#32 0#32 0#32)).operands.length = 0#32 ∧
    (running .apply (opsOf 0#32 0#32 10#32)).operands.srcAddr = 0#32 := by decide

/-- A source and a destination that both end with BUF. -/
theorem witness_SequentialApplyStreams :
    let o := (running .apply (opsOf 0xFF00#32 0xFF00#32 256#32)).operands
    o.length.toNat ≠ 0 ∧ o.srcAddr ≠ 0#32 ∧
    o.srcAddr.toNat + o.length.toNat ≤ Params.vectors.bufSize ∧
    o.dstAddr.toNat + o.length.toNat ≤ Params.vectors.bufSize := by decide

/-- No byte at any address, and a stream that ends with BUF. -/
theorem witness_SeekedApplyStreams :
    (running .applySeek (opsOf 0xFFFFFFFF#32 0xFFFFFFFF#32 0#32)).operands.length.toNat = 0 ∧
    let o := (running .applySeek (opsOf 0xFFFF#32 0xFFFF#32 1#32)).operands
    o.srcAddr.toNat + o.length.toNat ≤ Params.vectors.bufSize ∧
    o.dstAddr.toNat + o.length.toNat ≤ Params.vectors.bufSize := by decide

/-- A destination one byte ahead, where byte 1 reads byte 0 of the output; one behind; and one apart. -/
theorem witness_OverlapFollowsByteOrder :
    (∃ t, exec .apply (running .apply (opsOf 0x1000#32 0x1001#32 3#32)) = .next t) ∧
    (0x1000 < 0x1001 ∧ 0x1000 + 1 = 0x1001 + 0) ∧ 0x1000 ≤ 0x1001 ∧ 0x1000 + 3 ≤ 0x1003 :=
  ⟨⟨_, execApply_runs _ (by decide) (by decide) (by decide) (by decide)⟩, by decide, by decide, by decide⟩

theorem witness_SplitSeekEquivalence :
    0 < 0x1000 ∧ 0x1000 + [3, 0, 61].sum ≤ Params.vectors.bufSize ∧
    0xFFC0 + [3, 0, 61].sum ≤ Params.vectors.bufSize ∧ 0 < [3, 0, 61].sum ∧
    seqOf State.reset.variant State.reset.w = 0 ∧
    [3, 0, 61].sum < 2 ^ 32 ∧
    (opsOf 0x1000#32 0xFFC0#32 64#32).srcAddr = BitVec.ofNat 32 0x1000 ∧
    (opsOf 0x1000#32 0xFFC0#32 64#32).dstAddr = BitVec.ofNat 32 0xFFC0 ∧
    (opsOf 0x1000#32 0xFFC0#32 64#32).length = BitVec.ofNat 32 [3, 0, 61].sum := by decide

/-- In place, from a to d and back, and to a third place; all ranges fit. And a source at address 0, which
APPLY treats as null and the seeked forms as any other. -/
theorem witness_RoundTrip :
    (∃ t, exec .applySeek (running .applySeek (opsOf 0#32 64#32 64#32)) = .next t ∧
      t.status.cause = .ok) ∧
    let o := (running .apply (opsOf 0x1000#32 0xFF8E#32 114#32)).operands
    o.length.toNat ≠ 0 ∧ o.srcAddr ≠ 0#32 ∧ o.dstAddr ≠ 0#32 ∧
    o.srcAddr.toNat + o.length.toNat ≤ Params.vectors.bufSize ∧
    o.dstAddr.toNat + o.length.toNat ≤ Params.vectors.bufSize ∧
    o.srcAddr.toNat + o.length.toNat ≤ o.dstAddr.toNat ∧
    (0x2000#32).toNat + o.length.toNat ≤ o.dstAddr.toNat :=
  ⟨⟨_, execApplySeek_runs _ (by decide) (by decide), rfl⟩, by decide⟩

theorem witness_WindowsReachRegistersAndBuf : Params.vectors.wf ∧ 0xFFFF < Params.vectors.bufSize := by
  decide

theorem witness_IdleBlock : State.reset.engine = .idle := rfl

theorem witness_BusyBlock : busyBlock.engine = .busy 0x00000007#32 Operands.zero := rfl

theorem witness_ReadsHaveNoSideEffect :
    afterStep { busyBlock with inbox := [.busRead 0x40000008] } (fun t => t.replies) =
      some [0x00000001#32] ∧
    targetOf Params.vectors 0x400000FF = some (.reg 0xFF) ∧
    targetOf Params.vectors 0x5000FFFF = some (.buf 0xFFFF) := by decide

/-- A write at the first and last address of each window. -/
theorem witness_BusWritesActOnTheirTarget :
    ({ State.reset with inbox := [.busWrite 0x40000000 1#32 0#4] } : State).inbox =
      .busWrite 0x40000000 1#32 0#4 :: [] ∧
    targetOf Params.vectors 0x40000000 = some (.reg 0) ∧
    targetOf Params.vectors 0x400000FF = some (.reg 0xFF) ∧
    targetOf Params.vectors 0x50000000 = some (.buf 0) ∧
    targetOf Params.vectors 0x5000FFFF = some (.buf 0xFFFF) := by decide

/-- R71: a register write through the bus ignores its strobes. -/
theorem test_bus_write_register :
    afterStep { State.reset with inbox := [.busWrite 0x40000012 7#32 0#4] } (fun t => t.regs.srcAddr) =
      some 7#32 := by decide

/-- CMD at offset 0x0C, and at 0x0F, which is the same register. -/
theorem witness_CommandWriteIsAccepted : State.reset.engine = .idle ∧
    targetOf State.reset.params 0x4000000C = some (.reg 0x0C) ∧ 0x0C / 4 * 4 = 0x0C ∧
    targetOf State.reset.params 0x4000000F = some (.reg 0x0F) ∧ 0x0F / 4 * 4 = 0x0C := by decide

theorem witness_IrqFollowsEnableAndDone :
    (∃ t, State.engineTurn { busyBlock with ie := true } = .next t) ∧
    ({ State.reset with status := { Status.zero with done := true } } : State).status.done = true :=
  ⟨engineTurn_next _, rfl⟩

/-- An idle block, a command with a destination range that runs past BUF, and an illegal word. -/
theorem witness_ResetAbandonsCommand :
    ({ State.reset with inbox := [.reset] } : State).inbox = .reset :: [] ∧
    (running .apply (opsOf 0x10#32 0xFFFF#32 2#32)).engine =
      .busy 0x00000010#32 (opsOf 0x10#32 0xFFFF#32 2#32) ∧
    decode 0x00000010#32 = .ok .apply ∧ decode 0x00000009#32 = .error .illegalOpcode :=
  ⟨rfl, rfl, rfl, rfl⟩

theorem witness_AcceptedCommandCompletes :
    let s : State := { busyBlock with inbox := [.busRead 0x40000008, .engineTurn] }
    s.engine = .busy 0x00000007#32 Operands.zero ∧ s.NoStray ∧ .reset ∉ s.inbox := by
  refine ⟨rfl, ?_, by decide⟩
  unfold State.NoStray
  decide

/-- A host write between acceptance and completion. -/
theorem witness_HostCannotDisturbCommand :
    (∃ t, busyBlock.takeEvent (.busWrite 0x4000000C 6#32 0xF#4) = .next t) ∧
    ∃ t, busyBlock.engineTurn = .next t :=
  ⟨⟨_, rfl⟩, engineTurn_next _⟩

theorem witness_WaitEndsIdle :
    let s : State := { busyBlock with inbox := waitEvents Params.vectors 2 ++ [.reset] }
    s.params.wf ∧ s.engine = .busy 0x00000007#32 Operands.zero ∧
    s.inbox = waitEvents s.params 2 ++ [.reset] := ⟨by decide, rfl, rfl⟩

end Sys2Proof.Machine.Tests
end

section
/-! PROOF. The statements of 10_state.md: reset, the fetch, the host's registers, and who may write
the state words, VARIANT and CAUSE. -/

namespace Sys2Proof

/-- The decoder reads back the command whose word the encoder wrote (R105). -/
theorem decode_encode (i : Instr) : decode (encode i) = .ok i := by
  cases i with
  | init v => cases v <;> rfl
  | _ => rfl

end Sys2Proof

namespace Sys2Proof.Machine

open Sys2Proof

/-! ### Reset and the fetch -/

/-- CTRL reads 0 after power-on reset: IE is clear (R48). -/
theorem ctrlWord_resetOf (p : Params) : (State.resetOf p).ctrlWord = 0#32 := by
  change State.reset.ctrlWord = 0#32
  decide

/-- STATUS reads 0 after power-on reset: no flag, CAUSE 0, variant DJB, idle (R48). -/
theorem statusWord_resetOf (p : Params) : (State.resetOf p).statusWord = 0#32 := by
  change State.reset.statusWord = 0#32
  decide

/-- Settles O1: each element by its own value in `State.resetOf`. -/
theorem resetValues : Obligations.ResetValues := by
  intro p
  refine ⟨fun k h => ?_, rfl, fun j h => ?_, rfl, ctrlWord_resetOf p,
    statusWord_resetOf p, rfl, rfl, fun a => rfl⟩
  · exact Vector.getElem_replicate h
  · exact Vector.getElem_replicate h

/-- Settles O6: after reset BUF is empty and the engine idle. -/
theorem invariantAfterReset : Obligations.InvariantAfterReset := fun _ =>
  ⟨⟨List.Pairwise.nil, fun _ hx => absurd hx List.not_mem_nil⟩, trivial⟩

/-- The turn of a busy engine whose latched word is a command (R265 phase 2). -/
theorem engineTurn_of_decode {s : State} {cmd : Word} {ops : Operands} {i : Instr}
    (h : s.engine = .busy cmd ops) (hd : decode cmd = .ok i) : s.engineTurn = exec i s := by
  simp only [State.engineTurn, h, hd]

/-- What `withFetchWord` leaves for the word of a command: acceptance, with the turn next (R265). -/
theorem withFetchWord_encode (s : State) (i : Instr) :
    s.withFetchWord 32 (encode i).toNat =
      { s.accept (encode i) with inbox := .engineTurn :: s.inbox } := by
  have hw : BitVec.ofNat 32 ((encode i).toNat % 2 ^ 32) = encode i := by
    rw [Nat.mod_eq_of_lt (encode i).isLt, BitVec.ofNat_toNat, BitVec.setWidth_eq]
  simp only [State.withFetchWord, hw]

/-- Settles O3: the fetched word is accepted and, at the turn that follows, decodes to `i`. -/
theorem fetchedWordRunsNext : Obligations.FetchedWordRunsNext := by
  intro s i
  rw [withFetchWord_encode]
  exact engineTurn_of_decode (s := s.accept (encode i)) rfl (decode_encode i)

/-! ### Who writes the state words, VARIANT and CAUSE -/

/-- No host write changes CAUSE (R35, R36). -/
theorem WriteResult.cause {s t : State} (h : WriteResult s t) :
    t.status.cause = s.status.cause := by
  cases h <;> rfl

/-- The three kinds of step, as the words, VARIANT, MASK and CAUSE see them: they are kept, or
reset, or the step is a busy engine's turn (R22, R24, R36). -/
theorem step_writers {s t : State} (h : step s = .next t) :
    (t.w = s.w ∧ t.variant = s.variant ∧ t.mask = s.mask ∧ t.status.cause = s.status.cause) ∨
    (∃ es, s.inbox = .reset :: es ∧ t = State.hardReset { s with inbox := es }) ∨
    (s.TurnIsNext ∧ ∃ cmd ops es, s.engine = .busy cmd ops ∧
      TurnResult cmd { s with inbox := es } t) := by
  cases step_result h with
  | rest | idleTurn | read => exact .inl ⟨rfl, rfl, rfl, rfl⟩
  | write _ _ _ hw =>
    obtain ⟨-, -, hwords, hvariant, hmask, -, -⟩ := hw.keeps
    exact .inl ⟨hwords, hvariant, hmask, hw.cause⟩
  | reset hi => exact .inr (.inl ⟨_, hi, rfl⟩)
  | lastTurn hi he hr => exact .inr (.inr ⟨.inl hi, _, _, s.inbox, he, hr⟩)
  | turn hi he hr => exact .inr (.inr ⟨.inr ⟨_, hi⟩, _, _, _, he, hr⟩)

/-- The five codes of R231 are below 5. -/
theorem Cause.code_lt (c : Cause) : c.code.toNat < 5 := by cases c <;> decide

/-- Settles O15: of the three kinds of step only the turn and the reset write CAUSE. -/
theorem causeWrittenOnlyAtCompletion : Obligations.CauseWrittenOnlyAtCompletion := by
  refine ⟨fun s t h hne => ?_, Cause.code_lt⟩
  rcases step_writers h with ⟨-, -, -, hc⟩ | ⟨es, hi, rfl⟩ | ⟨-, cmd, ops, es, he, hr⟩
  · exact absurd hc hne
  · exact .inr ⟨es, hi, rfl⟩
  · exact .inl ⟨cmd, ops, he, hr.engine, hr.done⟩

/-- A turn that changes a state word ran a command that is none of the four that write no word
(R22). -/
theorem TurnResult.words {cmd : Word} {s t : State} (h : TurnResult cmd s t) (hw : t.w ≠ s.w) :
    ∃ i, decode cmd = .ok i ∧ i ≠ .nop ∧ i ≠ .getSeq ∧ i ≠ .genMask ∧ i ≠ .permuteBuf := by
  cases h with
  | rejected | failed => exact absurd rfl hw
  | @ran i _ hd _ he =>
    have hi : ¬ (i = .nop ∨ i = .getSeq ∨ i = .genMask ∨ i = .permuteBuf) := mt he.words hw
    simp only [not_or] at hi
    exact ⟨i, hd, hi⟩

/-- A turn that changes VARIANT ran INIT, and the words and the mask are zeroed (R24, R150). -/
theorem TurnResult.variant {cmd : Word} {s t : State} (h : TurnResult cmd s t)
    (hv : t.variant ≠ s.variant) :
    (∃ v, decode cmd = .ok (.init v)) ∧ t.w = Vector.replicate 16 0#32 ∧
      t.mask = Vector.replicate 64 0#8 := by
  cases h with
  | rejected | failed => exact absurd rfl hv
  | ran hd _ he =>
    rcases he.variant with ⟨hkept, -⟩ | ⟨v, rfl, hwords, hmask, -⟩
    · exact absurd hkept hv
    · exact ⟨⟨v, hd⟩, hwords, hmask⟩

/-- Settles O26: a reset zeroes words and mask; a turn changes them by `TurnResult.words` and
`TurnResult.variant`; every other step keeps them. -/
theorem stateWordWriters : Obligations.StateWordWriters := by
  intro s t h
  rcases step_writers h with ⟨hw, hv, -, -⟩ | ⟨es, hi, rfl⟩ | ⟨hturn, cmd, ops, es, he, hr⟩
  · exact ⟨fun hne => absurd hw hne, fun hne => absurd hv hne⟩
  · refine ⟨fun _ => .inl ⟨es, hi⟩, fun _ => ⟨.inl ⟨es, hi⟩, fun k hk => ?_, fun j hj => ?_⟩⟩
    · exact Vector.getElem_replicate hk
    · exact Vector.getElem_replicate hj
  · refine ⟨fun hne => ?_, fun hne => ?_⟩
    · obtain ⟨i, hi⟩ := hr.words hne
      exact .inr ⟨hturn, cmd, ops, i, he, hi⟩
    · obtain ⟨⟨v, hd⟩, hw, hm⟩ := hr.variant hne
      refine ⟨.inr ⟨hturn, cmd, ops, v, he, hd⟩, fun k hk => ?_, fun j hj => ?_⟩
      · simp [hw]
      · simp [hm]

/-! ### The state that INIT and the setters build -/

/-- Equal BUF bytes are equal byte strings, whatever lists represent them (log entry 5). -/
theorem State.memReadBytes_of_memRead {s s' : State} (h : ∀ a, s'.memRead a = s.memRead a)
    (a n : Nat) : s'.memReadBytes a n = s.memReadBytes a n :=
  List.map_congr_left fun j _ => h (a + j)

/-- Two blocks with the same parameters, BUF bytes and words, and both with the variant `v`: all
that the setters read (R50). It asks less than `SameCore`: BUF is compared by its bytes, and the
mask, the operand registers and the phase are free. -/
structure SameWords (v : Variant) (s s' : State) : Prop where
  params : s'.params = s.params
  mem : ∀ a, s'.memRead a = s.memRead a
  w : s'.w = s.w
  variant : s.variant = v
  variant' : s'.variant = v

/-- Issuing a command touches none of what the setters read but the operands. -/
theorem SameWords.issued {v : Variant} {s s' : State} (h : SameWords v s s') (i : Instr)
    (o : Operands) : SameWords v (s.issued i o) (s'.issued i o) :=
  ⟨h.params, h.mem, h.w, h.variant, h.variant'⟩

theorem SameWords.complete {v : Variant} {s s' : State} (h : SameWords v s s') (c : Cause) :
    SameWords v (s.complete c) (s'.complete c) :=
  ⟨h.params, h.mem, h.w, h.variant, h.variant'⟩

/-- INIT makes two blocks the same in words and variant, whatever they held (R150). -/
theorem SameWords.init (v : Variant) {s s' : State} (hp : s'.params = s.params)
    (hm : ∀ a, s'.memRead a = s.memRead a) :
    ∃ t t', exec (.init v) s = .next t ∧ exec (.init v) s' = .next t' ∧ SameWords v t t' :=
  ⟨_, _, rfl, rfl, hp, hm, rfl, rfl, rfl⟩

/-- Each setter, a range error included, does the same to both (R152, R155, R165). -/
theorem SameWords.setter {v : Variant} {s s' : State} (h : SameWords v s s')
    (ho : s'.operands = s.operands) {i : Instr} (hi : i = .setKey ∨ i = .setNonce ∨ i = .setSeq) :
    ∃ t t', exec i s = .next t ∧ exec i s' = .next t' ∧ SameWords v t t' := by
  have hmem := State.memReadBytes_of_memRead h.mem
  obtain rfl | rfl | rfl := hi
  · simp only [exec, execSetKey, ho, h.params, h.variant, h.variant', h.w, hmem]
    split_ifs
    · exact ⟨_, _, rfl, rfl, h.complete _⟩
    · exact ⟨_, _, rfl, rfl, rfl, h.mem, rfl, rfl, rfl⟩
  · simp only [exec, execSetNonce, ho, h.params, h.variant, h.variant', h.w, hmem]
    split_ifs
    · exact ⟨_, _, rfl, rfl, h.complete _⟩
    · exact ⟨_, _, rfl, rfl, rfl, h.mem, rfl, rfl, rfl⟩
  · refine ⟨_, _, rfl, rfl, h.params, h.mem, ?_, h.variant, h.variant'⟩
    simp only [State.complete_w, State.setSeq_w, ho, h.variant, h.variant', h.w]

/-- Settles O27: INIT makes the two blocks the same, and each setter keeps them so. -/
theorem rebuiltStateIsACopy : Obligations.RebuiltStateIsACopy := by
  intro v key nonce seq s s' hp hm
  obtain ⟨t1, u1, ht1, hu1, h1⟩ := SameWords.init v
    (s := s.issued (.init v) key) (s' := s'.issued (.init v) key) hp hm
  obtain ⟨t2, u2, ht2, hu2, h2⟩ := (h1.issued .setKey key).setter rfl (.inl rfl)
  obtain ⟨t3, u3, ht3, hu3, h3⟩ := (h2.issued .setNonce nonce).setter rfl (.inr (.inl rfl))
  obtain ⟨t4, u4, ht4, hu4, h4⟩ := (h3.issued .setSeq seq).setter rfl (.inr (.inr rfl))
  exact ⟨t1, t2, t3, t4, u1, u2, u3, u4, ht1, ht2, ht3, ht4, hu1, hu2, hu3, hu4, h4.w,
    h4.variant'.trans h4.variant.symm, h4.variant'⟩

/-! ### STATUS -/

/-- The bits of STATUS a host write can clear, 1 to 5 (R35). -/
theorem getLsbD_clearMask {k : Nat} (h : k < 32) :
    (0x0000003E#32).getLsbD k = decide (1 ≤ k ∧ k ≤ 5) := by
  revert k
  decide

/-- The reserved bits of STATUS, 31:16, 11:9 and 7:6 (R34). -/
theorem getLsbD_reservedMask {k : Nat} (h : k < 32) :
    (0xFFFF0EC0#32).getLsbD k = decide (16 ≤ k ∨ (9 ≤ k ∧ k ≤ 11) ∨ k = 6 ∨ k = 7) := by
  revert k
  decide

/-- Settles O43: bit by bit, each of bits 1 to 5 is its flag and-not `v`'s bit, and every other bit
is kept. -/
theorem statusWriteOneToClears : Obligations.StatusWriteOneToClears := by
  refine fun s v => ⟨BitVec.eq_of_getLsbD_eq fun k hk => ?_, rfl⟩
  rw [BitVec.getLsbD_and, BitVec.getLsbD_not, BitVec.getLsbD_and, getLsbD_clearMask hk]
  by_cases h : 1 ≤ k ∧ k ≤ 5
  · simp only [getLsbD_statusWord]
    obtain rfl | rfl | rfl | rfl | rfl : k = 1 ∨ k = 2 ∨ k = 3 ∨ k = 4 ∨ k = 5 := by omega
    all_goals simp [State.regWrite]
  · have hne : k ≠ 1 ∧ k ≠ 2 ∧ k ≠ 3 ∧ k ≠ 4 ∧ k ≠ 5 := by omega
    have hkept : (s.regWrite .status v).statusWord.getLsbD k = s.statusWord.getLsbD k := by
      simp only [getLsbD_statusWord, hne, if_false]
      rfl
    rw [hkept, decide_eq_false h]
    simp [hk]

/-- CAUSE stands at bits 15:12 of STATUS (R34). -/
theorem statusWord_cause (s : State) : s.statusWord.extractLsb' 12 4 = s.status.cause.code := by
  refine BitVec.eq_of_getLsbD_eq fun k hk => ?_
  have hne : 12 + k ≠ 0 ∧ 12 + k ≠ 1 ∧ 12 + k ≠ 2 ∧ 12 + k ≠ 3 ∧ 12 + k ≠ 4 ∧ 12 + k ≠ 5 ∧
      12 + k ≠ 8 := by omega
  simp [getLsbD_statusWord, hk, hne]

/-- The reserved bits of STATUS read 0 (R34). -/
theorem statusWord_reserved (s : State) : s.statusWord &&& 0xFFFF0EC0#32 = 0#32 := by
  refine BitVec.eq_of_getLsbD_eq fun k hk => ?_
  rw [BitVec.getLsbD_and, BitVec.getLsbD_zero, getLsbD_reservedMask hk]
  by_cases h : 16 ≤ k ∨ (9 ≤ k ∧ k ≤ 11) ∨ k = 6 ∨ k = 7
  · have hne : k ≠ 0 ∧ k ≠ 1 ∧ k ≠ 2 ∧ k ≠ 3 ∧ k ≠ 4 ∧ k ≠ 5 ∧ k ≠ 8 := by omega
    have hclear : s.statusWord.getLsbD k = false := by
      simp only [getLsbD_statusWord, hne, if_false]
      split_ifs
      · exact BitVec.getLsbD_of_ge _ _ (by omega)
      · rfl
    rw [hclear, Bool.false_and]
  · simp [h]

/-- BUSY is the phase of an engine that is not idle (R44). -/
theorem isBusy_iff_ne_idle (s : State) : s.isBusy = true ↔ s.engine ≠ .idle := by
  cases h : s.engine with
  | idle => simp [isBusy_of_idle h]
  | busy cmd ops => simp [isBusy_of_busy h]

/-- Settles O44: the single bits by `getLsbD_statusWord`, CAUSE and the reserved bits by their
lemmas. -/
theorem statusLayout : Obligations.StatusLayout := by
  intro s
  simp only [getLsbD_statusWord, statusWord_cause, statusWord_reserved]
  simp [isBusy_iff_ne_idle]

/-! ### The host's registers -/

/-- Settles O45: CTRL holds bit 0 alone, so it reads as `v` cut to bit 0; the rest is the register
map. -/
theorem controlAndReadOnlyRegisters : Obligations.ControlAndReadOnlyRegisters := by
  refine fun s v => ⟨BitVec.eq_of_getLsbD_eq fun k hk => ?_, rfl, rfl, rfl, rfl, rfl, rfl,
    fun k => ⟨rfl, rfl⟩⟩
  simp only [State.regRead, getLsbD_ctrlWord, BitVec.getLsbD_and, BitVec.getLsbD_one]
  by_cases h : k = 0
  · subst h
    simp [State.regWrite]
  · simp [h]

/-- While idle a host write of the operand registers is done (R28). -/
theorem writeOperands_idle {s : State} (h : s.engine = .idle) (o : Operands) :
    s.writeOperands o = { s with regs := o } := by
  simp [State.writeOperands, isBusy_of_idle h]

/-- The operand registers after a host write of `v` to register `r` of the map (R28). -/
def Operands.put (o : Operands) (v : Word) : Reg → Operands
  | .srcAddr => { o with srcAddr := v }
  | .dstAddr => { o with dstAddr := v }
  | .length => { o with length := v }
  | .offsetLo => { o with offsetLo := v }
  | .offsetHi => { o with offsetHi := v }
  | .seqLo => { o with seqLo := v }
  | .seqHi => { o with seqHi := v }
  | .id | .ctrl | .status | .cmd | .word _ | .mask _ | .reserved => o

section
variable (o : Operands) (v : Word) (r : Reg)

@[simp] theorem Operands.put_srcAddr :
    (o.put v r).srcAddr = if r = .srcAddr then v else o.srcAddr := by cases r <;> rfl
@[simp] theorem Operands.put_dstAddr :
    (o.put v r).dstAddr = if r = .dstAddr then v else o.dstAddr := by cases r <;> rfl
@[simp] theorem Operands.put_length :
    (o.put v r).length = if r = .length then v else o.length := by cases r <;> rfl
@[simp] theorem Operands.put_offsetLo :
    (o.put v r).offsetLo = if r = .offsetLo then v else o.offsetLo := by cases r <;> rfl
@[simp] theorem Operands.put_offsetHi :
    (o.put v r).offsetHi = if r = .offsetHi then v else o.offsetHi := by cases r <;> rfl
@[simp] theorem Operands.put_seqLo :
    (o.put v r).seqLo = if r = .seqLo then v else o.seqLo := by cases r <;> rfl
@[simp] theorem Operands.put_seqHi :
    (o.put v r).seqHi = if r = .seqHi then v else o.seqHi := by cases r <;> rfl

end

/-- The seven operand registers (R28, R38 to R42). -/
def operandRegs : List Reg := [.srcAddr, .dstAddr, .length, .offsetLo, .offsetHi, .seqLo, .seqHi]

/-- An idle block's operand register takes the value written, and nothing else changes (R28). -/
theorem regWrite_operand {s : State} (h : s.engine = .idle) {r : Reg} (hr : r ∈ operandRegs)
    (v : Word) : s.regWrite r v = { s with regs := s.regs.put v r } := by
  simp only [operandRegs, List.mem_cons, List.not_mem_nil, or_false] at hr
  rcases hr with rfl | rfl | rfl | rfl | rfl | rfl | rfl <;> exact writeOperands_idle h _

/-- The register written reads back the value (R28). -/
theorem regRead_put_same {s : State} (h : s.engine = .idle) {r : Reg} (hr : r ∈ operandRegs)
    (v : Word) : State.regRead { s with regs := s.regs.put v r } r = v := by
  have hbusy : State.isBusy { s with regs := s.regs.put v r } = false := isBusy_of_idle h
  simp only [operandRegs, List.mem_cons, List.not_mem_nil, or_false] at hr
  rcases hr with rfl | rfl | rfl | rfl | rfl | rfl | rfl <;>
    simp [State.regRead, State.hiddenWhileBusy, hbusy]

/-- Every other register reads as before (R28). -/
theorem regRead_put_other (s : State) {r r' : Reg} (h : r' ≠ r) (v : Word) :
    State.regRead { s with regs := s.regs.put v r } r' = s.regRead r' := by
  have hbusy : State.isBusy { s with regs := s.regs.put v r } = s.isBusy := rfl
  cases r' <;>
    simp [State.regRead, State.hiddenWhileBusy, State.ctrlWord, State.statusWord, hbusy, h.symm]

/-- Settles O40: while idle the write is `Operands.put`, which the read of the same register sees
and no other read does. -/
theorem operandRegisterReadsBack : Obligations.OperandRegisterReadsBack := by
  intro s r v h hr
  rw [regWrite_operand h hr]
  exact ⟨regRead_put_same h hr v, fun r' hne => regRead_put_other s hne v, rfl⟩

end Sys2Proof.Machine
end

section
/-! PROOF. The statements of 20_memory.md: the invariant of BUF and of the latch, the two windows, and
what a bus access does. -/

namespace Sys2Proof.Machine

open Sys2Proof

/-! ### The invariant -/

theorem State.latchOk_of_idle {s : State} (h : s.engine = .idle) : s.LatchOk := by
  simp only [State.LatchOk, h]

theorem State.latchOk_of_busy {s : State} {cmd : Word} {ops : Operands}
    (h : s.engine = .busy cmd ops) : s.LatchOk ↔ ops = s.regs ∧ s.status.done = false := by
  simp only [State.LatchOk, h]

/-- The latch speaks of the phase, the operand registers and DONE alone (R28, R44, R78). -/
theorem State.LatchOk.of_eq {s t : State} (h : s.LatchOk) (he : t.engine = s.engine)
    (hr : t.regs = s.regs) (hd : s.status.done = false → t.status.done = false) : t.LatchOk := by
  cases hs : s.engine with
  | idle => exact State.latchOk_of_idle (he.trans hs)
  | busy cmd ops =>
    obtain ⟨hops, hdone⟩ := (State.latchOk_of_busy hs).1 h
    exact (State.latchOk_of_busy (he.trans hs)).2 ⟨hops.trans hr.symm, hd hdone⟩

/-- The environment's lists are no part of the invariant (log entry 2). -/
theorem State.Inv.withLists {s : State} (h : s.Inv) (es : List Event) (rs : List Word) :
    State.Inv { s with inbox := es, replies := rs } :=
  ⟨h.buf.of_eq rfl rfl, h.latch.of_eq rfl rfl id⟩

/-- A turn leaves the engine idle and BUF in order (R79, R235). -/
theorem TurnResult.inv {cmd : Word} {s t : State} (h : TurnResult cmd s t) (hs : s.Inv) : t.Inv :=
  ⟨h.bufOk hs.buf, State.latchOk_of_idle h.engine⟩

/-- A reset leaves the engine idle, and its draws are bytes of BUF (R260, R261). -/
theorem State.Inv.hardReset {s : State} (h : s.Inv) : s.hardReset.Inv :=
  ⟨⟨Memory.wf_drawBytes h.buf.wf _ _ _ _, Memory.inside_drawBytes h.buf.inside _ _ _⟩, trivial⟩

/-- A host write keeps the invariant: acceptance latches the operand registers and clears DONE (R265),
no other write changes them or sets DONE while the engine is busy (R28, R35, R44). -/
theorem WriteResult.inv {s t : State} (h : WriteResult s t) (hs : s.Inv) : t.Inv := by
  obtain ⟨hbuf, hlatch⟩ := hs
  cases h with
  | ignored => exact ⟨hbuf, hlatch⟩
  | ctrl b => exact ⟨hbuf.of_eq rfl rfl, hlatch.of_eq rfl rfl id⟩
  | status v => exact ⟨hbuf.of_eq rfl rfl, hlatch.of_eq rfl rfl fun hd => by simp [hd]⟩
  | accepted c => exact ⟨hbuf.of_eq rfl rfl, rfl, rfl⟩
  | operands o he => exact ⟨hbuf.of_eq rfl rfl, State.latchOk_of_idle he⟩
  | stored m he hm => exact ⟨hm hbuf, State.latchOk_of_idle he⟩
  | dropped => exact ⟨hbuf.of_eq rfl rfl, hlatch.of_eq rfl rfl id⟩

/-- Settles O7: the turn, the reset and the host write each keep the invariant; every other step
changes the environment's lists alone. -/
theorem stepKeepsInvariant : Obligations.StepKeepsInvariant := by
  intro s t hs h
  cases step_result h with
  | rest => exact hs
  | lastTurn _ _ hr => exact hr.inv hs
  | idleTurn => exact hs.withLists _ _
  | turn _ _ hr => exact hr.inv (hs.withLists _ _)
  | reset => exact (hs.withLists _ _).hardReset
  | read => exact hs.withLists _ _
  | write _ _ _ hw => exact hw.inv (hs.withLists _ _)

/-! ### The bus accesses -/

/-- A step keeps the parameters and takes at most the first event. -/
theorem step_params_inbox {s t : State} (h : step s = .next t) :
    t.params = s.params ∧ t.inbox = s.inbox.tail := by
  cases step_result h with
  | lastTurn hi _ hr | turn hi _ hr =>
    obtain ⟨hp, -, -, hinbox, -⟩ := hr.keeps
    exact ⟨hp, by simp [hinbox, hi]⟩
  | write hi _ _ hw =>
    obtain ⟨hp, -, -, -, -, hinbox, -⟩ := hw.keeps
    exact ⟨hp, by simp [hinbox, hi]⟩
  | rest hi | idleTurn hi | reset hi | read hi => exact ⟨rfl, by simp [hi]⟩

/-- A step keeps every event to come inside the windows (R70). -/
theorem step_noStray {s t : State} (h : step s = .next t) (hs : s.NoStray) : t.NoStray := by
  obtain ⟨hp, hi⟩ := step_params_inbox h
  intro e he
  rw [hp]
  exact hs e (List.mem_of_mem_tail (hi ▸ he))

section
variable {s : State} {addr : Nat} {v : Word} {st : BitVec 4} {es : List Event}

/-- A bus read of a window: the data joins what the host has read (R72). -/
theorem step_busRead {g : Target} (hi : s.inbox = .busRead addr :: es)
    (hg : targetOf s.params addr = some g) :
    step s = .next { s with inbox := es, replies := s.targetRead g :: s.replies } := by
  simp only [step, hi, State.takeEvent, State.busRead, hg, targetRead_inbox]

/-- A bus read outside the windows stops the model (log entry 6). -/
theorem step_busRead_stray (hi : s.inbox = .busRead addr :: es) (hg : targetOf s.params addr = none) :
    step s = .fault (.outsideWindows addr) := by
  simp only [step, hi, State.takeEvent, State.busRead, hg]

/-- A bus write of a window. -/
theorem step_busWrite {g : Target} (hi : s.inbox = .busWrite addr v st :: es)
    (hg : targetOf s.params addr = some g) :
    step s = .next (State.targetWrite { s with inbox := es } g v st) := by
  simp only [step, hi, State.takeEvent, State.busWrite, hg]

/-- A bus write outside the windows stops the model (log entry 6). -/
theorem step_busWrite_stray (hi : s.inbox = .busWrite addr v st :: es)
    (hg : targetOf s.params addr = none) : step s = .fault (.outsideWindows addr) := by
  simp only [step, hi, State.takeEvent, State.busWrite, hg]

end

/-- Settles O5: an empty event list and one whose head is the block's own both satisfy
`step_next_of_head`; a stray access is the fault. -/
theorem stepStopsOnlyOutsideWindows : Obligations.StepStopsOnlyOutsideWindows := by
  refine fun s => ⟨fun hi => step_next_of_head fun e es he => ?_,
    fun e rest hi hw => step_next_of_head fun e' es he => ?_,
    fun hs t h => step_noStray h hs,
    fun addr rest hi hg => step_busRead_stray hi hg,
    fun addr v st rest hi hg => step_busWrite_stray hi hg⟩
  · rw [hi] at he
    cases he
  · rw [hi] at he
    cases he
    exact hw

/-- Settles O47: a read that answers reached a window, and then it is `step_busRead`. -/
theorem readsHaveNoSideEffect : Obligations.ReadsHaveNoSideEffect := by
  intro s addr rest hi
  refine ⟨fun t h => ?_, fun o hg => step_busRead hi hg, fun a hg => step_busRead hi hg⟩
  cases hg : targetOf s.params addr with
  | none =>
    rw [step_busRead_stray hi hg] at h
    cases h
  | some g =>
    rw [step_busRead hi hg] at h
    cases h
    exact ⟨_, rfl⟩

/-- Settles O54: the target's write, which does not see the events still to come. -/
theorem busWritesActOnTheirTarget : Obligations.BusWritesActOnTheirTarget := by
  refine fun s addr v st rest hi => ⟨fun o hg => ?_, fun a hg => ?_⟩
  · rw [step_busWrite hi hg, State.targetWrite, regWrite_inbox]
  · rw [step_busWrite hi hg, State.targetWrite, bufWrite_inbox]

/-! ### A BUF write, byte by byte -/

/-- Each byte of the bus word is its lane where the strobe is 1 (R73). -/
theorem memRead_bufWrite_lane {s : State} (h : s.engine = .idle) (a : Nat) (v : Word)
    (st : BitVec 4) {j : Nat} (hj : j < 4) :
    (s.bufWrite a v st).memRead (laneBase a + j) =
      if st.getLsbD j then byteOf v j else s.memRead (laneBase a + j) := by
  simp only [bufWrite_idle h, memRead_writeLane, Nat.add_left_cancel_iff]
  obtain rfl | rfl | rfl | rfl : j = 0 ∨ j = 1 ∨ j = 2 ∨ j = 3 := by omega
  all_goals simp

/-- Every byte outside the bus word is kept (R73). -/
theorem memRead_bufWrite_outside {s : State} (h : s.engine = .idle) (a : Nat) (v : Word)
    (st : BitVec 4) {b : Nat} (hb : ¬ (laneBase a ≤ b ∧ b < laneBase a + 4)) :
    (s.bufWrite a v st).memRead b = s.memRead b := by
  have hne : ∀ j, j < 4 → b ≠ laneBase a + j := by omega
  simp only [bufWrite_idle h, memRead_writeLane, hne, false_and, if_false, Nat.reduceLT]

/-- An idle BUF write changes BUF and nothing else (R73). -/
theorem bufWrite_eq {s : State} (h : s.engine = .idle) (a : Nat) (v : Word) (st : BitVec 4) :
    s.bufWrite a v st = { s with buf := (s.bufWrite a v st).buf } := by
  rw [bufWrite_idle h, writeLanes_eq]

/-- Settles O46: the bytes of the bus word, the bytes outside it, and the frame. -/
theorem bufWriteStoresStrobedLanes : Obligations.BufWriteStoresStrobedLanes := fun _ a v st h =>
  ⟨fun _ hj => memRead_bufWrite_lane h a v st hj, fun _ hb => memRead_bufWrite_outside h a v st hb,
    bufWrite_eq h a v st⟩

/-! ### The address map -/

theorem targetOf_regWindow (p : Params) {o : Nat} (h : o < 256) :
    targetOf p (p.regBase + o) = some (.reg o) := by
  rw [targetOf, if_pos (by omega), Nat.add_sub_cancel_left]

/-- R81 keeps the BUF window clear of the register window. -/
theorem targetOf_bufWindow {p : Params} (hp : p.wf) {a : Nat} (h : a < p.bufSize) :
    targetOf p (p.bufBase + a) = some (.buf a) := by
  rw [targetOf, if_neg (by omega), if_pos (by omega), Nat.add_sub_cancel_left]

/-- The reserved offsets of the register map (R29). -/
theorem regAt_reserved {o : Nat} (h : (0x2C ≤ o ∧ o < 0x40) ∨ 0xC0 ≤ o) : regAt o = .reserved := by
  simp only [regAt]
  iterate 11 rw [if_neg (by omega)]
  rw [dif_neg (by omega), dif_neg (by omega)]

/-- `WORDk` and `MASKk` stand at 0x40 + 4k and 0x80 + 4k (R29). -/
theorem regAt_word_mask (k : Fin 16) :
    regAt (0x40 + 4 * k.val) = .word k ∧ regAt (0x80 + 4 * k.val) = .mask k := by
  revert k
  decide

/-- Settles O39: each window by its own lemma, and the register map by the table of R29. -/
theorem windowsReachRegistersAndBuf : Obligations.WindowsReachRegistersAndBuf :=
  fun p hp => ⟨fun _ ho => targetOf_regWindow p ho, fun o _ => regAt_congr (by omega),
    fun _ ha => targetOf_bufWindow hp ha, regAt_word_mask, fun _ _ h => regAt_reserved h, rfl⟩

end Sys2Proof.Machine
end

section
/-! PROOF. The statements of 30_encoding.md: the decoder and the encoder, the rejected words, the
packing of keys and nonces, and WAIT. -/

namespace Sys2Proof

/-! ### The decoding order -/

/-- Every legal OP names a command (R105). -/
theorem commandOf_legal {op : BitVec 8} (h : op ∈ legalOps) (v : Variant) :
    ∃ i, commandOf op v = some i :=
  Option.ne_none_iff_exists'.1 fun hn => commandOf_none.1 hn h

/-- R109 (1). -/
theorem decode_illegal {c : Word} (h : c.extractLsb' 0 8 ∉ legalOps) :
    decode c = .error .illegalOpcode := by
  simp only [decode, ofWord_op, commandOf_none.2 h]

/-- R109 (2) and (3): once OP names a command, the reserved bits decide. -/
theorem decode_of_commandOf {c : Word} {i : Instr}
    (h : commandOf (c.extractLsb' 0 8) (Variant.ofBit ((CmdFields.ofWord c).v == 1#1)) = some i) :
    decode c =
      if c.extractLsb' 9 23 ≠ 0#23 ∨ (c.getLsbD 8 = true ∧ c.extractLsb' 0 8 ≠ 0x01#8) then
        .error .reservedBits
      else .ok i := by
  simp only [decode, ofWord_op, ofWord_rsvd, ofWord_v, h]

/-- R109 (2). -/
theorem decode_reserved {c : Word} (hop : c.extractLsb' 0 8 ∈ legalOps)
    (h : c.extractLsb' 9 23 ≠ 0#23 ∨ (c.getLsbD 8 = true ∧ c.extractLsb' 0 8 ≠ 0x01#8)) :
    decode c = .error .reservedBits := by
  obtain ⟨i, hi⟩ := commandOf_legal hop (Variant.ofBit ((CmdFields.ofWord c).v == 1#1))
  rw [decode_of_commandOf hi, if_pos h]

/-- A word that decodes passed all three tests of R109. -/
theorem decode_ok {c : Word} {i : Instr} (h : decode c = .ok i) :
    commandOf (c.extractLsb' 0 8) (Variant.ofBit ((CmdFields.ofWord c).v == 1#1)) = some i ∧
      c.extractLsb' 9 23 = 0#23 ∧ (c.getLsbD 8 = true → c.extractLsb' 0 8 = 0x01#8) := by
  by_cases hop : c.extractLsb' 0 8 ∈ legalOps
  · obtain ⟨j, hj⟩ := commandOf_legal hop (Variant.ofBit ((CmdFields.ofWord c).v == 1#1))
    rw [decode_of_commandOf hj] at h
    split_ifs at h with hr
    cases h
    simp only [not_or, not_and, not_not] at hr
    exact ⟨hj, hr⟩
  · rw [decode_illegal hop] at h
    cases h

/-- Settles O10: a legal OP names a command, and the reserved bits decide whether it runs. -/
theorem decodingOrder : Obligations.DecodingOrder := by
  refine fun c => ⟨decode_illegal, decode_reserved, fun hop hrsvd hv => ?_⟩
  obtain ⟨i, hi⟩ := commandOf_legal hop (Variant.ofBit ((CmdFields.ofWord c).v == 1#1))
  refine ⟨i, ?_, (commandOf_some hi).1⟩
  rw [decode_of_commandOf hi, if_neg]
  rintro (h | ⟨h8, h⟩)
  · exact h hrsvd
  · exact h (hv h8)

/-! ### The decoder and the encoder agree -/

/-- The V bit of a decoded command is the word's: INIT takes its variant from it, and for every
other command R109 (2) lets only V = 0 pass (R100, R102). -/
theorem vBitOf_commandOf {op : BitVec 8} {b : BitVec 1} {i : Instr}
    (h : commandOf op (Variant.ofBit (b == 1#1)) = some i) (hv : b = 1#1 → op = 0x01#8) :
    vBitOf i = b := by
  obtain ⟨hop, hinit, -⟩ := commandOf_some h
  cases i with
  | init v =>
    rw [vBitOf, hinit v rfl]
    obtain rfl | rfl := bit_cases b <;> rfl
  | _ =>
    have hne : b ≠ 1#1 := fun hb => absurd (hop.trans (hv hb)) (by decide)
    exact ((bit_cases b).resolve_right hne).symm

/-- A word that decodes has the fields the encoder writes (R100, R103, R105). -/
theorem ofWord_of_decode {c : Word} {i : Instr} (h : decode c = .ok i) :
    CmdFields.ofWord c = fieldsOf i := by
  obtain ⟨hi, hrsvd, hv⟩ := decode_ok h
  have hop : opcodeOf i = (CmdFields.ofWord c).op := (commandOf_some hi).1
  have hbit : vBitOf i = (CmdFields.ofWord c).v :=
    vBitOf_commandOf hi fun h1 => hv ((ofWord_v c).1 h1)
  rw [fieldsOf, hop, hbit, ← hrsvd]
  rfl

/-- A word and a command agree under the decoder exactly when they do under the encoder. -/
theorem decode_eq_ok_iff {c : Word} {i : Instr} : decode c = .ok i ↔ c = encode i := by
  constructor
  · intro h
    rw [encode, ← ofWord_of_decode h, toWord_ofWord]
  · rintro rfl
    exact decode_encode i

/-- The commands in the order of the opcode map, INIT with both variants (R105). -/
def commandList : List Instr :=
  [.nop, .init .djb, .init .rfc7539, .setKey, .setNonce, .setSeq, .getSeq, .incSeq, .genMask,
    .permuteBuf, .apply, .applyIp, .applySeek, .applySeekIp]

theorem mem_commandList (i : Instr) : i ∈ commandList := by
  cases i with
  | init v => cases v <;> decide
  | _ => decide

/-- Settles O9: the words that decode are the encoder's, and the 14 words of R105 are the encodings
of `commandList`, which leaves no command out. -/
theorem decodeIffEncoded : Obligations.DecodeIffEncoded := by
  refine ⟨fun c i => decode_eq_ok_iff, fun c => ?_⟩
  change (∃ i, decode c = .ok i) ↔ c ∈ commandList.map encode
  simp only [decode_eq_ok_iff, List.mem_map, mem_commandList, true_and, eq_comm (b := c)]

/-- Settles O8: each legal word is an encoding; the others fail the first or the second test of
R109. -/
theorem specWordsDecode : Obligations.SpecWordsDecode :=
  ⟨decode_encode .nop, decode_encode (.init .djb), decode_encode (.init .rfc7539),
    decode_encode .setKey, decode_encode .setNonce, decode_encode .setSeq, decode_encode .getSeq,
    decode_encode .incSeq, decode_encode .genMask, decode_encode .permuteBuf, decode_encode .apply,
    decode_encode .applyIp, decode_encode .applySeek, decode_encode .applySeekIp,
    decode_illegal (by decide), decode_illegal (by decide),
    decode_reserved (by decide) (.inr (by decide)), decode_reserved (by decide) (.inl (by decide))⟩

end Sys2Proof

namespace Sys2Proof.Machine

open Sys2Proof

/-! ### Rejected words -/

/-- When the engine's turn is next, the step is that turn, on the state without the turn's event
(log entry 3). -/
theorem step_of_turnIsNext {s : State} (h : s.TurnIsNext) :
    step s = State.engineTurn { s with inbox := s.inbox.tail } := by
  rcases h with hi | ⟨rest, hi⟩
  · have hs : ({ s with inbox := s.inbox.tail } : State) = s := by
      rw [hi, List.tail_nil, ← hi]
    rw [hs]
    simp only [step, hi]
  · simp only [step, hi, State.takeEvent, List.tail_cons]

/-- The turn of a busy engine whose latched word is no command (R232, R233). -/
theorem engineTurn_of_reject {s : State} {cmd : Word} {ops : Operands} {e : DecodeError}
    (h : s.engine = .busy cmd ops) (hd : decode cmd = .error e) :
    s.engineTurn = .next (s.complete (causeOfDecodeError e)) := by
  simp only [State.engineTurn, h, hd]

/-- A rejected word's completion sets ILLEGAL, DONE and the cause (R235). -/
theorem Status.completed_reject (st : Status) (e : DecodeError) :
    st.completed (causeOfDecodeError e) =
      { st with done := true, illegal := true, cause := causeOfDecodeError e } := by
  cases e <;> simp [Status.completed, causeOfDecodeError, Cause.setsIllegal, Cause.setsMemerr]

/-- A step that rejects the latched word only reports (R106, R107). -/
theorem step_of_reject {s : State} {cmd : Word} {ops : Operands} {e : DecodeError}
    (h : s.engine = .busy cmd ops) (hturn : s.TurnIsNext) (hd : decode cmd = .error e) :
    step s = .next { s with
      inbox := s.inbox.tail
      engine := .idle
      status := { s.status with done := true, illegal := true, cause := causeOfDecodeError e } } := by
  rw [step_of_turnIsNext hturn, engineTurn_of_reject (s := { s with inbox := s.inbox.tail }) h hd,
    State.complete, Status.completed_reject]

/-- Settles O11: both kinds of word are rejected by the decoder, and the step then only reports. -/
theorem rejectedWordOnlyReports : Obligations.RejectedWordOnlyReports := fun _ _ _ h hturn =>
  ⟨fun hop => step_of_reject h hturn (decode_illegal hop),
    fun hop hr => step_of_reject h hturn (decode_reserved hop hr)⟩

/-! ### Keys and nonces -/

/-- A completion with cause 0 sets DONE and CAUSE, and keeps the sticky flags (R235). -/
theorem Status.completed_ok (st : Status) :
    st.completed .ok = { st with done := true, cause := .ok } := by
  simp [Status.completed, Cause.setsIllegal, Cause.setsMemerr]

/-- The frame of a command that writes state words and completes. -/
theorem complete_words (s : State) (w : Words) :
    State.complete { s with w := w } .ok = { s with
      w := w, engine := .idle
      status := { s.status with done := true, cause := .ok } } := by
  rw [State.complete, Status.completed_ok]

/-- The range of R234 with its length cut to `cap`: an empty string never fails (R79). -/
theorem rangeOk_min {p : Params} {base len : Word} {cap : Nat}
    (h : len = 0#32 ∨ base.toNat + min len.toNat cap ≤ p.bufSize) :
    rangeOk p base (min len.toNat cap) = true := by
  rcases h with rfl | h
  · simp [rangeOk]
  · exact rangeOk_of_le h

/-- Byte `i + j` of a key or nonce read from BUF and padded to `cap`, as byte j of the word packed
at `i` (R11, R12). -/
theorem byteOf_le32_padBytes (s : State) {a cap len i j : Nat} (hj : j < 4) (h : i + j < cap) :
    byteOf (le32 (padBytes (s.memReadBytes a (min len cap)) cap) i) j =
      if i + j < len then s.memRead (a + (i + j)) else 0#8 := by
  simp only [byteOf_le32 _ _ _ hj, getD_padBytes_memReadBytes, h, true_and]

/-- SET_KEY on a key whose bytes read lie in BUF (R152). -/
theorem exec_setKey {s : State}
    (h : s.operands.length = 0#32 ∨
      s.operands.srcAddr.toNat + min s.operands.length.toNat 32 ≤ s.params.bufSize) :
    exec .setKey s = .next { s with
      w := packKey s.variant s.operands.length.toNat
        (s.memReadBytes s.operands.srcAddr.toNat (min s.operands.length.toNat 32)) s.w
      engine := .idle
      status := { s.status with done := true, cause := .ok } } := by
  rw [execSetKey_runs s (rangeOk_min h), complete_words]
  rfl

/-- SET_NONCE on a nonce whose bytes read lie in BUF (R155). -/
theorem exec_setNonce {s : State}
    (h : s.operands.length = 0#32 ∨ s.operands.srcAddr.toNat +
      min s.operands.length.toNat (nonceCap s.variant) ≤ s.params.bufSize) :
    exec .setNonce s = .next { s with
      w := packNonce s.variant (s.memReadBytes s.operands.srcAddr.toNat
        (min s.operands.length.toNat (nonceCap s.variant))) s.w
      engine := .idle
      status := { s.status with done := true, cause := .ok } } := by
  rw [execSetNonce_runs s (rangeOk_min h), complete_words]
  rfl

section
variable (kb : List Byte) (w : Words) {i : Nat}

/-- The first half of a short key (R111). -/
theorem getElem_packShortKey_low (hi : i < 4) :
    (packShortKey kb w)[4 + i] = le32 (padBytes kb 16) (4 * i) := by
  rw [getElem_packShortKey, dif_neg (by omega), if_pos (by omega), Nat.add_sub_cancel_left]

/-- The second half of a short key (R111). -/
theorem getElem_packShortKey_high (hi : i < 4) :
    (packShortKey kb w)[8 + i] = le32 (padBytes kb 16) (4 * i) := by
  rw [getElem_packShortKey, dif_neg (by omega), if_neg (by omega), if_pos (by omega),
    Nat.add_sub_cancel_left]

/-- The eight words of a long key (R112, R113). -/
theorem getElem_packLongKey_key (hi : i < 8) :
    (packLongKey kb w)[4 + i] = le32 (padBytes kb 32) (4 * i) := by
  rw [getElem_packLongKey, dif_neg (by omega), if_pos (by omega), Nat.add_sub_cancel_left]

end

/-- A DJB key of at most 16 bytes is packed in the short form (R153). -/
theorem packKey_short {v : Variant} {len : Nat} (hv : v = .djb) (h : len ≤ 16) (kb : List Byte)
    (w : Words) : packKey v len kb w = packShortKey kb w := by
  subst hv
  exact if_pos (decide_eq_true h)

/-- Every other key is packed in the long form (R153). -/
theorem packKey_long {v : Variant} {len : Nat} (h : v = .djb → 16 < len) (kb : List Byte)
    (w : Words) : packKey v len kb w = packLongKey kb w := by
  refine if_neg ?_
  cases v with
  | djb =>
    have hlen := h rfl
    simpa [isShortKey] using hlen
  | rfc7539 => exact Bool.false_ne_true

/-- Settles O18: the words are `packShortKey`'s, byte by byte by `byteOf_le32_padBytes`. -/
theorem setKeyShortPacking : Obligations.SetKeyShortPacking := by
  intro s hv hlen hfit
  have h16 : min s.operands.length.toNat 32 = min s.operands.length.toNat 16 := by omega
  have hexec := exec_setKey (s := s) (hfit.imp_right (by omega))
  rw [packKey_short hv hlen, h16] at hexec
  refine ⟨_, hexec, getElem_packShortKey _ _ 0 _, getElem_packShortKey _ _ 1 _,
    getElem_packShortKey _ _ 2 _, getElem_packShortKey _ _ 3 _,
    fun i j hi hj => ⟨?_, ?_⟩, fun k hk h12 => ?_, rfl⟩
  · rw [getElem_packShortKey_low _ _ hi]
    exact byteOf_le32_padBytes s hj (by omega)
  · rw [getElem_packShortKey_low _ _ hi, getElem_packShortKey_high _ _ hi]
  · rw [getElem_packShortKey, dif_neg (by omega), if_neg (by omega), if_neg (by omega)]

/-- Settles O19: the words are `packLongKey`'s, byte by byte by `byteOf_le32_padBytes`. -/
theorem setKeyLongPacking : Obligations.SetKeyLongPacking := by
  intro s hlen hfit
  have hexec := exec_setKey hfit
  rw [packKey_long hlen] at hexec
  refine ⟨_, hexec, getElem_packLongKey _ _ 0 _, getElem_packLongKey _ _ 1 _,
    getElem_packLongKey _ _ 2 _, getElem_packLongKey _ _ 3 _,
    fun i j hi hj => ?_, fun k hk h12 => ?_, rfl⟩
  · rw [getElem_packLongKey_key _ _ hi]
    exact byteOf_le32_padBytes s hj (by omega)
  · rw [getElem_packLongKey, dif_neg (by omega), if_neg (by omega)]

/-- The first nonce word of each variant (R114, R115). -/
def nonceFirst : Variant → Nat
  | .djb => 14
  | .rfc7539 => 13

/-- The nonce fills the words from the first nonce word to the end. -/
theorem nonceCap_eq (v : Variant) : nonceCap v = 4 * (16 - nonceFirst v) := by cases v <;> rfl

/-- Word k of a packed nonce (R114, R115). -/
theorem getElem_packNonce_of_ge (v : Variant) (nb : List Byte) (w : Words) {k : Nat} (h : k < 16)
    (hk : nonceFirst v ≤ k) :
    (packNonce v nb w)[k] = le32 (padBytes nb (nonceCap v)) (4 * (k - nonceFirst v)) := by
  rw [getElem_packNonce]
  cases v with
  | djb =>
    obtain rfl | rfl : k = 14 ∨ k = 15 := by simp only [nonceFirst] at hk; omega
    all_goals rfl
  | rfc7539 =>
    obtain rfl | rfl | rfl : k = 13 ∨ k = 14 ∨ k = 15 := by simp only [nonceFirst] at hk; omega
    all_goals rfl

/-- The words below the nonce are kept (R156, R157, R159). -/
theorem getElem_packNonce_below (v : Variant) (nb : List Byte) (w : Words) {k : Nat} (h : k < 16)
    (hk : k < nonceFirst v) : (packNonce v nb w)[k] = w[k] := by
  refine getElem_packNonce_of_lt v nb w k h ?_
  cases v with
  | djb => exact (Nat.lt_or_eq_of_le (Nat.le_of_lt_succ hk)).imp_right (⟨·, rfl⟩)
  | rfc7539 => exact .inl hk

/-- Settles O20: from `nonceFirst` on the words are the padded nonce's, below it they are kept. -/
theorem setNoncePacking : Obligations.SetNoncePacking := by
  intro s
  have hcap : (if s.variant = .djb then 8 else 12) = nonceCap s.variant := by
    cases s.variant <;> rfl
  have hfirst : (if s.variant = .djb then 14 else 13) = nonceFirst s.variant := by
    cases s.variant <;> rfl
  simp only [hcap, hfirst]
  intro hfit
  refine ⟨_, exec_setNonce hfit, fun k j hk hge hj => ?_, fun k hk hlt => ?_, rfl⟩
  · have hbyte : 4 * (k - nonceFirst s.variant) + j < nonceCap s.variant := by
      rw [nonceCap_eq]
      omega
    rw [getElem_packNonce_of_ge _ _ _ hk hge]
    exact byteOf_le32_padBytes s hj hbyte
  · exact getElem_packNonce_below _ _ _ hk hlt

/-! ### WAIT -/

/-- The read of STATUS that WAIT polls with: its word joins what the host has read (R31, R120). -/
theorem step_pollStatus {s : State} {rest : List Event}
    (h : s.inbox = AsmLine.event s.params (.rd .status) :: rest) :
    step s = .next { s with inbox := rest, replies := s.statusWord :: s.replies } :=
  step_busRead h (targetOf_regWindow s.params (by decide))

/-- Any number of polls adds that number of copies of one STATUS word to what the host has read, and
changes nothing else (R72, R120). -/
theorem run_pollStatus (n k : Nat) (s : State) (rest : List Event)
    (h : s.inbox = List.replicate n (AsmLine.event s.params (.rd .status)) ++ rest) :
    Host.Core.run Sys2Proof.core (n + k) s = Host.Core.run Sys2Proof.core k
      { s with inbox := rest, replies := List.replicate n s.statusWord ++ s.replies } := by
  induction n generalizing s with
  | zero =>
    obtain rfl : s.inbox = rest := h
    rw [Nat.zero_add]
    rfl
  | succ n ih =>
    rw [Nat.succ_add, run_succ (step_pollStatus h), ih _ rfl, List.replicate_succ',
      List.append_assoc]
    rfl

/-- BUSY is bit 0 of STATUS (R34). -/
theorem statusWord_busy (s : State) : s.statusWord.getLsbD 0 = s.isBusy := by
  rw [getLsbD_statusWord, if_pos rfl]

/-- The end of WAIT: the turn completes the command, and the read after it returns STATUS as it then
is (R120, R235). -/
theorem run_turnThenPoll {s : State} {cmd : Word} {ops : Operands} {rest : List Event}
    (hbusy : s.engine = .busy cmd ops)
    (hi : s.inbox = .engineTurn :: AsmLine.event s.params (.rd .status) :: rest) :
    ∃ t : State, Host.Core.run Sys2Proof.core 2 s = .next t ∧ t.engine = .idle ∧ t.status.done = true ∧
      t.inbox = rest ∧ t.replies = t.statusWord :: s.replies := by
  have hstep := step_of_turnIsNext (.inr ⟨_, hi⟩)
  obtain ⟨t, hturn, hr⟩ := engineTurn_busy (s := { s with inbox := s.inbox.tail }) hbusy
  obtain ⟨hparams, -, -, hin, hreplies⟩ := hr.keeps
  have hpoll := step_pollStatus (s := t) (rest := rest) (by rw [hin, hparams, hi, List.tail_cons])
  refine ⟨{ t with inbox := rest, replies := t.statusWord :: t.replies }, ?_, hr.engine, hr.done,
    rfl, congrArg (t.statusWord :: ·) hreplies⟩
  rw [run_succ (hstep.trans hturn), run_succ hpoll]
  rfl

/-- Settles O53: the polls read one word with BUSY = 1, and after the turn the last read finds
BUSY = 0. -/
theorem waitEndsIdle : Obligations.WaitEndsIdle := by
  intro s cmd ops polls rest _ hbusy hi
  rw [waitEvents, List.append_assoc] at hi
  obtain ⟨t, hrun, hidle, hdone, hinbox, hreplies⟩ := run_turnThenPoll (s := { s with
    inbox := .engineTurn :: AsmLine.event s.params (.rd .status) :: rest
    replies := List.replicate polls s.statusWord ++ s.replies }) hbusy rfl
  refine ⟨t, t.statusWord, List.replicate polls s.statusWord,
    (run_pollStatus polls 2 s _ hi).trans hrun, hidle, hdone, hinbox, hreplies, rfl, ?_,
    List.length_replicate, fun y hy => ?_⟩
  · rw [statusWord_busy, isBusy_of_idle hidle]
  · rw [List.eq_of_mem_replicate hy, statusWord_busy, isBusy_of_busy hbusy]

end Sys2Proof.Machine
end

section
/-! PROOF. The statements of 40_block_permutation.md: the quarter round, the order of the quarter
rounds of a pass, GEN_MASK and PERMUTE_BUF. -/

namespace Sys2Proof.Machine

open Sys2Proof

/-! ### The quarter round (R130) -/

/-- The quarter round writes its own words only: so does each of its lines (R130). -/
theorem quarterRound_other (x : Words) {a b c d k : Fin 16} (ha : k ≠ a) (hb : k ≠ b) (hc : k ≠ c)
    (hd : k ≠ d) : (quarterRound x a b c d)[k] = x[k] := by
  simp only [quarterRound, quarterLine_other _ _ _ ha hd, quarterLine_other _ _ _ hc hb]

/-- Settles O28: each of the four words is followed back through the lines, of which the first and
third write `a` and `d` and the second and fourth write `c` and `b`. -/
theorem quarterRoundLines : Obligations.QuarterRoundLines := by
  intro x a b c d hab hac had hbc hbd hcd
  have sumA (y : Words) (n : Nat) := quarterLine_sum y b n had
  have mixD (y : Words) (n : Nat) := quarterLine_mix y b n had
  have keepB (y : Words) (n : Nat) := quarterLine_other y b n hab.symm hbd
  have keepC (y : Words) (n : Nat) := quarterLine_other y b n hac.symm hcd
  have sumC (y : Words) (n : Nat) := quarterLine_sum y d n hbc.symm
  have mixB (y : Words) (n : Nat) := quarterLine_mix y d n hbc.symm
  have keepA (y : Words) (n : Nat) := quarterLine_other y d n hac hab
  have keepD (y : Words) (n : Nat) := quarterLine_other y d n hcd.symm hbd.symm
  refine ⟨?_, ?_, ?_, ?_, fun k => quarterRound_other x⟩
  all_goals simp only [quarterRound, sumA, mixD, keepB, keepC, sumC, mixB, keepA, keepD]

/-! ### The order of the quarter rounds of a pass (R139) -/

/-- The indices of one quarter round of a pass (R131, R132). -/
abbrev Quad := Fin 16 × Fin 16 × Fin 16 × Fin 16

/-- The words a quarter round acts on. -/
def Quad.words (q : Quad) : List (Fin 16) := [q.1, q.2.1, q.2.2.1, q.2.2.2]

/-- The quarter round with the indices `q`, as one step of a pass. -/
def quarterRoundAt (x : Words) (q : Quad) : Words := quarterRound x q.1 q.2.1 q.2.2.1 q.2.2.2

/-- A quarter round of a pass keeps the words of the others (R139). -/
theorem quarterRoundAt_other (x : Words) {q : Quad} {k : Fin 16} (hk : k ∉ q.words) :
    (quarterRoundAt x q)[k] = x[k] := by
  simp only [Quad.words, List.mem_cons, List.not_mem_nil, or_false, not_or] at hk
  obtain ⟨ha, hb, hc, hd⟩ := hk
  exact quarterRound_other x ha hb hc hd

/-- What a quarter round writes depends on its own four words only (R130). -/
theorem quarterRoundAt_congr {x y : Words} {q : Quad} (hq : q.words.Nodup)
    (h : ∀ k ∈ q.words, x[k] = y[k]) :
    ∀ k ∈ q.words, (quarterRoundAt x q)[k] = (quarterRoundAt y q)[k] := by
  obtain ⟨a, b, c, d⟩ := q
  simp only [Quad.words, List.nodup_cons, List.mem_cons, List.not_mem_nil, or_false, not_or,
    not_false_eq_true, List.nodup_nil, and_true, forall_eq_or_imp, forall_eq] at hq h ⊢
  obtain ⟨⟨hab, hac, had⟩, ⟨hbc, hbd⟩, hcd⟩ := hq
  obtain ⟨ha, hb, hc, hd⟩ := h
  obtain ⟨xa, xb, xc, xd, -⟩ := quarterRoundLines x a b c d hab hac had hbc hbd hcd
  obtain ⟨ya, yb, yc, yd, -⟩ := quarterRoundLines y a b c d hab hac had hbc hbd hcd
  simp only [quarterRoundAt, xa, xb, xc, xd, ya, yb, yc, yd, ha, hb, hc, hd, and_self]

/-- Two quarter rounds on disjoint words may be done in either order (R139). -/
theorem quarterRoundAt_comm (x : Words) {p q : Quad} (hp : p.words.Nodup) (hq : q.words.Nodup)
    (h : p.words.Disjoint q.words) :
    quarterRoundAt (quarterRoundAt x p) q = quarterRoundAt (quarterRoundAt x q) p := by
  have key : ∀ k : Fin 16, (quarterRoundAt (quarterRoundAt x p) q)[k] =
      (quarterRoundAt (quarterRoundAt x q) p)[k] := by
    intro k
    by_cases hkp : k ∈ p.words
    · rw [quarterRoundAt_other _ (h hkp)]
      exact quarterRoundAt_congr hp (fun j hj => (quarterRoundAt_other x (h hj)).symm) k hkp
    · rw [quarterRoundAt_other (quarterRoundAt x q) hkp]
      by_cases hkq : k ∈ q.words
      · exact quarterRoundAt_congr hq (fun j hj => quarterRoundAt_other x (h.symm hj)) k hkq
      · rw [quarterRoundAt_other _ hkq, quarterRoundAt_other _ hkq, quarterRoundAt_other _ hkp]
  exact Vector.ext fun k hk => key ⟨k, hk⟩

/-- Quarter rounds whose words are all distinct may be done in any order (R139). -/
theorem foldl_quarterRoundAt_perm {l m : List Quad} (x : Words) (hl : l.Perm m)
    (hm : (m.flatMap Quad.words).Nodup) : l.foldl quarterRoundAt x = m.foldl quarterRoundAt x := by
  obtain ⟨hnodup, hdisj⟩ := List.nodup_flatMap.1 hm
  have hsymm : Std.Symm (Function.onFun List.Disjoint Quad.words) := ⟨fun _ _ h => h.symm⟩
  refine (hl.symm.foldl_eq' (fun p hp q hq y => ?_) x).symm
  by_cases hpq : p = q
  · rw [hpq]
  · exact quarterRoundAt_comm y (hnodup p hp) (hnodup q hq) (hdisj.forall hp hq hpq)

/-- The column pass is its four quarter rounds, one after another (R131). -/
theorem columnPass_eq_foldl (x : Words) :
    columnPass x = [(0, 4, 8, 12), (1, 5, 9, 13), (2, 6, 10, 14), (3, 7, 11, 15)].foldl
      quarterRoundAt x := by
  simp only [List.foldl_cons, List.foldl_nil, quarterRoundAt, columnPass]

/-- The diagonal pass is its four quarter rounds, one after another (R132). -/
theorem diagonalPass_eq_foldl (x : Words) :
    diagonalPass x = [(0, 5, 10, 15), (1, 6, 11, 12), (2, 7, 8, 13), (3, 4, 9, 14)].foldl
      quarterRoundAt x := by
  simp only [List.foldl_cons, List.foldl_nil, quarterRoundAt, diagonalPass]

/-- Settles O29: a pass is its four quarter rounds in the listed order, and their words are
pairwise disjoint. -/
theorem passOrderIsFree : Obligations.PassOrderIsFree :=
  ⟨fun _ x hl => (foldl_quarterRoundAt_perm x hl (by decide)).trans
      (columnPass_eq_foldl x).symm,
    fun _ x hl => (foldl_quarterRoundAt_perm x hl (by decide)).trans
      (diagonalPass_eq_foldl x).symm⟩

/-! ### GEN_MASK (R136) -/

/-- A register MASKk of an idle engine reads the mask (R32). -/
theorem regRead_mask {s : State} (h : s.engine = .idle) (k : Fin 16) :
    s.regRead (.mask k) = maskWord s.mask k := by
  simp only [State.regRead, State.hiddenWhileBusy, isBusy_of_idle h, Bool.false_eq_true, if_false]

/-- The frame of GEN_MASK: the mask, and the completion (R136). -/
theorem complete_generateMask (s : State) :
    s.generateMask.complete .ok = { s with
      mask := permute s.w, engine := .idle
      status := { s.status with done := true, cause := .ok } } := by
  rw [State.complete, Status.completed_ok, State.generateMask]

/-- Settles O30: the mask is `permute` of the state words, read word by word and byte by byte. -/
theorem genMaskPermutesState : Obligations.GenMaskPermutesState := by
  intro s
  refine ⟨_, congrArg Host.Outcome.next (complete_generateMask s),
    fun k => (regRead_mask rfl k).trans (maskWord_permute s.w k), fun i hi => ?_, rfl⟩
  have hk : i / 4 < 16 := by omega
  rw [getElem!_pos (doubleRounds 10 s.w) _ hk, getElem!_pos s.w _ hk]
  exact maskByte_permute s.w i hi

/-! ### PERMUTE_BUF (R137) -/

/-- 64 BUF bytes as 16 words packed little-endian (R137). -/
theorem wordsOfBytes_memReadBytes (s : State) (a : Nat) :
    wordsOfBytes (s.memReadBytes a 64) = Vector.ofFn fun k : Fin 16 =>
      s.memRead (a + 4 * k + 3) ++ s.memRead (a + 4 * k + 2) ++ s.memRead (a + 4 * k + 1) ++
        s.memRead (a + 4 * k) :=
  Vector.ext fun k hk => by rw [Vector.getElem_ofFn]; exact getElem_wordsOfBytes s a ⟨k, hk⟩

/-- The frame of PERMUTE_BUF: the mask, the bytes written, and the completion (R137). -/
theorem complete_memWriteBytes_mask (s : State) (m : Mask) (d : Nat) (vs : List Byte) :
    (State.memWriteBytes { s with mask := m } d vs).complete .ok = { s with
      mask := m, buf := (State.memWriteBytes { s with mask := m } d vs).buf, engine := .idle
      status := { s.status with done := true, cause := .ok } } := by
  rw [State.complete, State.memWriteBytes_eq, Status.completed_ok]

/-- A mask written to BUF stands in the 64 bytes from `d` up (R137). -/
theorem memRead_memWriteBytes_mask (s : State) (d : Nat) (m : Mask) {j : Nat} (h : j < 64) :
    (s.memWriteBytes d m.toList).memRead (d + j) = m[j] := by
  rw [State.memRead_memWriteBytes, Vector.length_toList, if_pos (by omega), Nat.add_sub_cancel_left,
    ← maskByte_eq_getD, maskByte, dif_pos h]

/-- A completion that reports a range error sets MEMERR, DONE and the cause (R235, R236). -/
theorem complete_rangeError (s : State) {c : Cause} (h : c = .srcRange ∨ c = .dstRange) :
    s.complete c = { s with
      engine := .idle
      status := { s.status with done := true, memerr := true, cause := c } } := by
  obtain rfl | rfl := h <;>
    simp [State.complete, Status.completed, Cause.setsIllegal, Cause.setsMemerr]

/-- A string that is not empty and runs past BUF fails the range check (R79). -/
theorem rangeOk_of_not_le {p : Params} {base : Word} {n : Nat} (hn : n ≠ 0)
    (h : ¬ base.toNat + n ≤ p.bufSize) : rangeOk p base n = false :=
  Bool.eq_false_iff.2 fun hok => ((rangeOk_iff p base n).1 hok).elim hn h

/-- PERMUTE_BUF checks the source first (R137). -/
theorem execPermuteBuf_srcRange (s : State)
    (hs : rangeOk s.params s.operands.srcAddr 64 = false) :
    exec .permuteBuf s = .next (s.complete .srcRange) := by
  simp only [exec, execPermuteBuf, hs, Bool.not_false, if_true]

/-- PERMUTE_BUF checks the destination where the source fits (R137). -/
theorem execPermuteBuf_dstRange (s : State)
    (hs : rangeOk s.params s.operands.srcAddr 64 = true)
    (hd : rangeOk s.params s.operands.dstAddr 64 = false) :
    exec .permuteBuf s = .next (s.complete .dstRange) := by
  simp only [exec, execPermuteBuf, hs, hd, Bool.not_true, Bool.not_false, Bool.false_eq_true,
    if_false, if_true]

/-- Settles O31: the two range checks in their order, and where both pass the mask is made of bytes
read before the first one is written. -/
theorem permuteBufWritesMask : Obligations.PermuteBufWritesMask := by
  intro s
  refine ⟨fun ha hd => ?_, fun ha => ?_, fun ha hd => ?_⟩
  · have hexec := execPermuteBuf_runs s (rangeOk_of_le ha) (rangeOk_of_le hd)
    rw [wordsOfBytes_memReadBytes] at hexec
    generalize permute _ = m at hexec ⊢
    refine ⟨_, hexec, ?_, fun j hj => ?_, fun b hb => ?_, ?_⟩
    · rw [complete_memWriteBytes_mask]
    · rw [State.memRead_complete, memRead_memWriteBytes_mask _ _ _ hj, complete_memWriteBytes_mask]
    · rw [State.memRead_complete, State.memRead_memWriteBytes, Vector.length_toList, if_neg hb]
      rfl
    · rw [complete_memWriteBytes_mask]
  · rw [execPermuteBuf_srcRange s (rangeOk_of_not_le (by decide) ha),
      complete_rangeError s (.inl rfl)]
  · rw [execPermuteBuf_dstRange s (rangeOk_of_le ha) (rangeOk_of_not_le (by decide) hd),
      complete_rangeError s (.inr rfl)]

end Sys2Proof.Machine
end

section
/-! PROOF. The statements of 41_state_manager.md: INIT, the commands on the sequence, and who may
change the sequence, the nonce and WRAP. -/

namespace Sys2Proof.Machine

open Sys2Proof

/-! ### INIT (R150) -/

/-- Settles O17: the words and the mask are all zero, and cause 0 touches no sticky flag. -/
theorem initBuildsZeroState : Obligations.InitBuildsZeroState := by
  intro v s
  refine ⟨_, rfl, fun k h => Vector.getElem_replicate h, fun j h => Vector.getElem_replicate h,
    rfl, ?_⟩
  rw [State.complete, Status.completed_ok]

/-! ### The halves of the sequence (R160, R161) -/

/-- The low half of a 64-bit value, as SetSeq stores it in W[12]. -/
theorem ofNat_toNat_append (hi lo : Word) : BitVec.ofNat 32 (hi ++ lo).toNat = lo := by
  have hlo := lo.isLt
  apply BitVec.eq_of_toNat_eq
  rw [BitVec.toNat_ofNat, toNat_append_words]
  omega

/-- The high half of a 64-bit value, as SetSeq stores it in W[13]. -/
theorem ofNat_toNat_append_shiftRight (hi lo : Word) :
    BitVec.ofNat 32 ((hi ++ lo).toNat >>> 32) = hi := by
  have hlo := lo.isLt
  have hhi := hi.isLt
  apply BitVec.eq_of_toNat_eq
  rw [ofNat_shiftRight_toNat, toNat_append_words]
  omega

/-- A 64-bit value is out of the range of 32 bits when its high half is not 0. -/
theorem two_pow_le_toNat_append (hi lo : Word) : 2 ^ 32 ≤ (hi ++ lo).toNat ↔ hi ≠ 0#32 := by
  have hlo := lo.isLt
  rw [toNat_append_words, ne_eq, ← BitVec.toNat_inj, BitVec.toNat_ofNat]
  omega

theorem getElem_withSeq_low (v : Variant) (w : Words) (n : Nat) :
    (withSeq v w n)[12] = BitVec.ofNat 32 n := by
  rw [getElem_withSeq, if_pos rfl]

theorem getElem_withSeq_high (w : Words) (n : Nat) :
    (withSeq .djb w n)[13] = BitVec.ofNat 32 (n >>> 32) := by
  rw [getElem_withSeq, if_neg (by decide), if_pos ⟨rfl, rfl⟩]

/-- The frame of SET_SEQ and INC_SEQ: state words, WRAP, and the completion (R161, R162). -/
theorem complete_words_orWrap (s : State) (w : Words) (b : Bool) :
    State.complete { s with w := w, status := s.status.orWrap b } .ok = { s with
      w := w, engine := .idle
      status := { s.status with done := true, cause := .ok, wrap := s.status.wrap || b } } := by
  rw [State.complete, Status.completed_ok, Status.orWrap]

/-! ### SET_SEQ and GET_SEQ (R165, R166) -/

/-- What SET_SEQ does (R165). -/
theorem exec_setSeq (s : State) : exec .setSeq s = .next { s with
    w := withSeq s.variant s.w s.operands.seqValue, engine := .idle
    status := { s.status with
      done := true, cause := .ok
      wrap := s.status.wrap || decide (2 ^ seqWidth s.variant ≤ s.operands.seqValue) } } :=
  congrArg Host.Outcome.next (complete_words_orWrap s _ _)

/-- Settles O21: DJB stores both halves of SEQ_HI:SEQ_LO, which always fit; RFC7539 stores the low
one, and the value fits when the high one is 0. -/
theorem setSeqLoadsSequence : Obligations.SetSeqLoadsSequence := by
  intro s
  refine ⟨_, exec_setSeq s, ?_, fun hv => ⟨?_, ?_⟩, fun hv => ⟨?_, ?_⟩, fun k h h12 h13 => ?_, rfl⟩
  · exact (getElem_withSeq_low _ _ _).trans (ofNat_toNat_append _ _)
  · simp only [hv, getElem_withSeq_high]
    exact ofNat_toNat_append_shiftRight _ _
  · have hfits : ¬ 2 ^ seqWidth .djb ≤ s.operands.seqValue :=
      Nat.not_le.2 (s.operands.seqHi ++ s.operands.seqLo).isLt
    simp only [hv, hfits, decide_false, Bool.or_false]
  · exact getElem_withSeq_of_ne _ _ _ 13 (by decide) (by decide) (.inr hv)
  · simp only [hv]
    exact congrArg _ (decide_eq_decide.2 (two_pow_le_toNat_append _ _))
  · exact getElem_withSeq_of_ne _ _ _ k h h12 (.inl h13)

/-- What GET_SEQ does (R166). -/
theorem exec_getSeq (s : State) : exec .getSeq s = .next { s with
    regs := { s.regs with
      seqLo := s.w[12]
      seqHi := if s.variant = .djb then s.w[13] else 0#32 }
    engine := .idle
    status := { s.status with done := true, cause := .ok } } := by
  simp only [exec, execGetSeq, State.complete, Status.completed_ok]
  cases s.variant <;> rfl

/-- Settles O22: SEQ_HI is W[13] in DJB only. -/
theorem getSeqReadsSequence : Obligations.GetSeqReadsSequence := fun s =>
  ⟨_, exec_getSeq s, rfl, fun hv => if_pos hv, fun hv => if_neg (by simp [hv]), rfl⟩

/-! ### INC_SEQ (R162, R167) -/

/-- `IncSeq` counts modulo 2^CW (R162). -/
theorem State.seqOf_incSeq (s : State) :
    seqOf s.variant s.incSeq.w = (seqOf s.variant s.w + 1) % 2 ^ seqWidth s.variant := by
  rw [State.incSeq_words, seqOf_withSeq]

/-- `IncSeq` sets WRAP when the sequence it leaves is 0 (R162). -/
theorem State.incSeq_wrap (s : State) :
    s.incSeq.status.wrap = (s.status.wrap || decide (seqOf s.variant s.incSeq.w = 0)) := by
  rw [State.seqOf_incSeq, State.incSeq_status, Status.orWrap_wrap]

theorem seqOf_djb_eq_zero (w : Words) :
    seqOf .djb w = 0 ↔ (w[13] ++ w[12] : BitVec 64) = 0#64 :=
  BitVec.toNat_inj (x := w[13] ++ w[12]) (y := 0#64)

theorem seqOf_rfc7539_eq_zero (w : Words) : seqOf .rfc7539 w = 0 ↔ w[12] = 0#32 :=
  BitVec.toNat_inj (x := w[12]) (y := 0#32)

/-- What INC_SEQ does (R167). -/
theorem exec_incSeq (s : State) : exec .incSeq s = .next { s with
    w := s.incSeq.w, engine := .idle
    status := { s.status with done := true, cause := .ok, wrap := s.incSeq.status.wrap } } :=
  congrArg Host.Outcome.next (complete_words_orWrap s _ _)

/-- Settles O23: in each variant the sequence is one bit vector, whose value `IncSeq` counts. -/
theorem incSeqAddsOne : Obligations.IncSeqAddsOne := by
  intro s
  have hcount := s.seqOf_incSeq
  have hwrap := s.incSeq_wrap
  refine ⟨_, exec_incSeq s, fun hv => ⟨?_, ?_⟩, fun hv => ⟨?_, ?_, ?_⟩, fun k h h12 h13 => ?_, rfl⟩
  · rw [hv] at hcount
    exact BitVec.eq_of_toNat_eq hcount
  · rw [hv] at hwrap
    exact hwrap.trans (congrArg _ (decide_eq_decide.2 (seqOf_djb_eq_zero _)))
  · rw [hv] at hcount
    exact BitVec.eq_of_toNat_eq hcount
  · exact getElem_withSeq_of_ne _ _ _ 13 (by decide) (by decide) (.inr hv)
  · rw [hv] at hwrap
    exact hwrap.trans (congrArg _ (decide_eq_decide.2 (seqOf_rfc7539_eq_zero _)))
  · exact getElem_withSeq_of_ne _ _ _ k h h12 (.inl h13)

/-! ### Who changes the sequence and the nonce (R164) -/

/-- The six commands that use SetSeq or IncSeq (R164). -/
theorem usesSequence_iff (i : Instr) : usesSequence i = true ↔
    i = .setSeq ∨ i = .incSeq ∨ i = .apply ∨ i = .applyIp ∨ i = .applySeek ∨ i = .applySeekIp := by
  cases i <;> simp [usesSequence]

/-- The sequence of all-zero words is 0. -/
theorem seqOf_replicate_zero (v : Variant) : seqOf v (Vector.replicate 16 0#32) = 0 := by
  cases v <;> rfl

/-- A command that changes the sequence uses it, or is INIT, which makes it 0 (R164). -/
theorem Effect.seq_writers {i : Instr} {s r : State} (h : Effect i s r)
    (hne : seqOf r.variant r.w ≠ seqOf s.variant s.w) :
    usesSequence i = true ∨ ∃ v, i = .init v ∧ seqOf r.variant r.w = 0 := by
  rcases h.variant with ⟨-, hinit⟩ | ⟨v, hi, hw, -, -⟩
  · exact .inl (Bool.eq_true_of_not_eq_false fun hu => hne (h.seq hu hinit))
  · exact .inr ⟨v, hi, by rw [hw, seqOf_replicate_zero]⟩

/-- A command that changes a nonce word is SET_NONCE or INIT (R164). -/
theorem Effect.nonce_writers {i : Instr} {s r : State} (h : Effect i s r) {k : Nat} (hk : k < 16)
    (h13 : 13 ≤ k) (hv : k = 13 → s.variant = .rfc7539) (hne : r.w[k] ≠ s.w[k]) :
    i = .setNonce ∨ ∃ v, i = .init v := by
  by_contra hi
  rw [not_or, not_exists] at hi
  exact hne (h.nonce hi.1 hi.2 k hk h13 hv)

/-- Settles O24: a command that completes with cause 0 by its effect; one that reports an error
changes no word. -/
theorem sequenceAndNonceWriters : Obligations.SequenceAndNonceWriters := by
  intro i s t h
  rcases exec_shape i s with ⟨r, hr, he⟩ | ⟨c, -, hr⟩
  · obtain rfl : r.complete .ok = t := Host.Outcome.next.inj (hr.symm.trans h)
    exact ⟨fun hne => (he.seq_writers hne).imp_left (usesSequence_iff i).1,
      fun k hk h13 hv hne => he.nonce_writers hk h13 hv hne⟩
  · obtain rfl : s.complete c = t := Host.Outcome.next.inj (hr.symm.trans h)
    exact ⟨fun hne => absurd rfl hne, fun _ _ _ _ hne => absurd rfl hne⟩

/-! ### Who sets WRAP (R163, R164) -/

/-- No host write sets WRAP: a write to STATUS only clears it (R35). -/
theorem WriteResult.wrap {s t : State} (h : WriteResult s t) (ht : t.status.wrap = true) :
    s.status.wrap = true := by
  cases h with
  | status v => exact (Bool.and_eq_true_iff.1 ht).1
  | _ => exact ht

/-- A turn that sets WRAP ran a command that uses the sequence (R164). -/
theorem TurnResult.wrap {cmd : Word} {s t : State} (h : TurnResult cmd s t)
    (ht : t.status.wrap = true) (hs : s.status.wrap = false) :
    ∃ i, decode cmd = .ok i ∧ usesSequence i = true := by
  have hne : t.status.wrap ≠ s.status.wrap := by rw [ht, hs]; decide
  cases h with
  | rejected | failed => exact absurd rfl hne
  | @ran i r hd _ he =>
    have hkept (hu : usesSequence i = false) : r.status.wrap = s.status.wrap := by rw [he.wrap hu]
    exact ⟨i, hd, Bool.eq_true_of_not_eq_false fun hu => hne (hkept hu)⟩

/-- A step that sets WRAP is a busy engine's turn (R163). -/
theorem step_wrap {s t : State} (h : step s = .next t) (ht : t.status.wrap = true)
    (hs : s.status.wrap = false) :
    s.TurnIsNext ∧ ∃ cmd ops es, s.engine = .busy cmd ops ∧
      TurnResult cmd { s with inbox := es } t := by
  have hkept : ¬ s.status.wrap = true := Bool.eq_false_iff.1 hs
  cases step_result h with
  | rest | idleTurn | read => exact absurd ht hkept
  | reset => cases ht
  | write _ _ _ hw => exact absurd (hw.wrap ht) hkept
  | lastTurn hi he hr => exact ⟨.inl hi, _, _, s.inbox, he, hr⟩
  | turn hi he hr => exact ⟨.inr ⟨_, hi⟩, _, _, _, he, hr⟩

/-- Settles O25: the step is a busy engine's turn, and the turn ran a command that uses the
sequence. -/
theorem wrapSetOnlyBySequenceCommands : Obligations.WrapSetOnlyBySequenceCommands := by
  intro s t h ht hs
  obtain ⟨hturn, cmd, ops, es, he, hr⟩ := step_wrap h ht hs
  obtain ⟨i, hd, hu⟩ := hr.wrap ht hs
  exact ⟨hturn, hr.engine, cmd, ops, i, he, hd, (usesSequence_iff i).1 hu⟩

end Sys2Proof.Machine
end

section
/-! PROOF. The statements of 42_stream_applier.md: the keystream, what the four apply forms stream
and leave, overlapping ranges, a message split into chunks, and the round trip. -/

namespace Sys2Proof.Machine

open Sys2Proof

/-! ### NOP and the no-op APPLY (R190, R198) -/

/-- A completion with cause 0 and no other effect (R235). -/
theorem complete_ok (s : State) : s.complete .ok = { s with
    engine := .idle
    status := { s.status with done := true, cause := .ok } } :=
  complete_words s s.w

/-- Settles O16: NOP is a completion and nothing else. -/
theorem nopOnlyCompletes : Obligations.NopOnlyCompletes := fun s =>
  congrArg Host.Outcome.next (complete_ok s)

/-- The number of bytes a sequential form streams: none from the null source (R198). -/
def Operands.seqLength (o : Operands) : Nat :=
  if o.srcAddr = nullAddr then 0 else o.length.toNat

theorem Operands.seqLength_of_ne {o : Operands} (h : o.srcAddr ≠ nullAddr) :
    o.seqLength = o.length.toNat := if_neg h

/-- The no-op test of APPLY and APPLY_IP (R195, R198). -/
theorem Operands.seqLength_eq_zero_iff (o : Operands) :
    o.seqLength = 0 ↔ o.length.toNat = 0 ∨ o.srcAddr = nullAddr := by
  unfold Operands.seqLength
  split_ifs with h <;> simp [h]

/-- APPLY with no byte to stream only completes (R198). -/
theorem execApply_null {s : State} (h : s.operands.seqLength = 0) :
    exec .apply s = .next (s.complete .ok) := by
  simp only [exec, execApply, (Operands.seqLength_eq_zero_iff _).1 h, if_true]

/-- APPLY_IP with no byte to stream only completes (R198). -/
theorem execApplyIp_null {s : State} (h : s.operands.seqLength = 0) :
    exec .applyIp s = .next (s.complete .ok) := by
  simp only [exec, execApplyIp, (Operands.seqLength_eq_zero_iff _).1 h, if_true]

/-- Settles O33: no byte is to be streamed, so both forms are a completion and nothing else. -/
theorem nullApplyIsNoOp : Obligations.NullApplyIsNoOp := by
  intro s h
  have hnull : s.operands.seqLength = 0 :=
    (Operands.seqLength_eq_zero_iff _).2 (h.imp_left fun hL => by rw [hL]; rfl)
  rw [execApply_null hnull, execApplyIp_null hnull, complete_ok]
  exact ⟨rfl, rfl⟩

/-! ### The keystream (R191) -/

/-- Settles O32: `withSeq` overwrites the only words in which the two sets differ. -/
theorem keystreamIgnoresSequence : Obligations.KeystreamIgnoresSequence := by
  intro v w w' h p
  have hw (b : Nat) : withSeq v w' b = withSeq v w b := by
    refine Vector.ext fun k hk => ?_
    simp only [getElem_withSeq]
    split_ifs with h12 h13
    · rfl
    · rfl
    · refine h k hk h12 fun hk13 => ?_
      cases v
      · exact absurd ⟨hk13, rfl⟩ h13
      · rfl
  simp only [keystreamByte, keystreamBlock, hw]

/-- The keystream from the start of block `q` on, by blocks (R191). -/
theorem keystreamByte_block (v : Variant) (w : Words) (q i : Nat) :
    keystreamByte v w (64 * q + i) = maskByte (keystreamBlock v w (q + i / 64)) (i % 64) := by
  rw [keystreamByte, Nat.mul_add_div (by decide), Nat.mul_add_mod]

/-! ### What an apply command that runs leaves (R197, R202, R208) -/

/-- The width of the sequence, as the statements write it (R160). -/
theorem seqWidth_eq (v : Variant) : seqWidth v = if v = .djb then 64 else 32 := by
  cases v <;> rfl

/-- From `s` to `t` a command streamed `L` bytes with `ks` and completed, with the sequence at `n`
modulo 2^CW, WRAP for `n`, and the mask of block `b`. -/
structure Applied (d a L n b : Nat) (ks : Nat → Byte) (s t : State) : Prop where
  stream : Streamed d a L ks s t
  seq : seqOf t.variant t.w = n % 2 ^ (if s.variant = .djb then 64 else 32)
  words : ∀ k (h : k < 16), k ≠ 12 → (k = 13 → s.variant = .rfc7539) → t.w[k] = s.w[k]
  mask : t.mask = keystreamBlock s.variant s.w b
  frame : t = { s with
    w := t.w, mask := t.mask, buf := t.buf, engine := .idle
    status := { s.status with
      done := true, cause := .ok
      wrap := s.status.wrap || decide (2 ^ (if s.variant = .djb then 64 else 32) ≤ n) } }

/-- The result of an apply loop, completed. -/
theorem Applied.of_complete {d a L n b : Nat} {ks : Nat → Byte} {s r : State}
    (hr : r = { s with
      w := withSeq s.variant s.w n
      mask := keystreamBlock s.variant s.w b
      status := s.status.orWrap (decide (2 ^ seqWidth s.variant ≤ n))
      buf := r.buf })
    (hs : Streamed d a L ks s r) : Applied d a L n b ks s (r.complete .ok) := by
  have hv : r.variant = s.variant := by rw [hr]
  have hw : r.w = withSeq s.variant s.w n := by rw [hr]
  refine ⟨hs.congr rfl rfl, ?_, fun k hk h12 h13 => ?_, ?_, ?_⟩
  · rw [State.complete_w, State.complete_variant, hv, hw, seqOf_withSeq, seqWidth_eq]
  · simp only [State.complete_w, hw]
    exact getElem_withSeq_of_ne _ _ _ k hk h12 (not_or_of_imp h13)
  · rw [State.complete_mask, hr]
  · rw [State.complete, Status.completed_ok, hr, seqWidth_eq]
    rfl

/-- The sequential forms where they run (R197, R208). -/
theorem applied_applySeq (d a L : Nat) (s : State) (hL : L ≠ 0) :
    Applied d a L (seqOf s.variant s.w + (L + 63) / 64) (seqOf s.variant s.w + (L + 63) / 64 - 1)
      (fun i => keystreamByte s.variant s.w (64 * seqOf s.variant s.w + i)) s
      ((applySeq d a L s).complete .ok) :=
  .of_complete (applySeq_eq d a L s hL) (applySeq_result d a L s).stream

/-- The seeked forms where they run (R202, R203). -/
theorem applied_applySeekAt (d a L off : Nat) (s : State) :
    Applied d a L (lastBlock off L) (lastBlock off L)
      (fun i => keystreamByte s.variant s.w (off + i)) s
      ((applySeekAt d a L off s).complete .ok) :=
  .of_complete (applySeekAt_result d a L off s).eq (applySeekAt_result d a L off s).stream

/-- Settles O34: both forms are `ApplySeq` at their destination, and complete. -/
theorem sequentialApplyStreams : Obligations.SequentialApplyStreams := by
  intro s o L s0 CW after hL ha hs
  have hafter (d : Nat) : after d ((applySeq d o.srcAddr.toNat L s).complete .ok) := by
    obtain ⟨hstream, hseq, hwords, hmask, hframe⟩ := applied_applySeq d o.srcAddr.toNat L s hL
    simp only [keystreamByte_block] at hstream
    exact ⟨hstream, hseq, hwords, hmask, hframe⟩
  exact ⟨fun hd => ⟨_, execApply_runs s hL ha hs hd, hafter _⟩,
    ⟨_, execApplyIp_runs s hL ha hs, hafter _⟩⟩

/-- Settles O35: both forms are `ApplySeek` at their destination, and complete. -/
theorem seekedApplyStreams : Obligations.SeekedApplyStreams := by
  intro s o L off last CW after hs
  have hafter (d : Nat) : after d ((applySeekAt d o.srcAddr.toNat L off s).complete .ok) := by
    obtain ⟨hstream, hseq, hwords, hmask, hframe⟩ := applied_applySeekAt d o.srcAddr.toNat L off s
    exact ⟨hstream, hseq, hwords, hmask, hframe⟩
  have hsrc := (rangeOk_iff s.params o.srcAddr L).2 hs
  exact ⟨fun hd => ⟨_, execApplySeek_runs s hsrc ((rangeOk_iff _ _ _).2 hd), hafter _⟩,
    ⟨_, execApplySeekIp_runs s hsrc, hafter _⟩⟩

/-! ### Runs of the four forms, no-ops included -/

/-- From `s` to `t` a command streamed `L` bytes with `ks`, and kept all that the keystream and the
range checks of a later command depend on. -/
structure StreamRun (d a L : Nat) (ks : Nat → Byte) (s t : State) : Prop where
  stream : Streamed d a L ks s t
  params : t.params = s.params
  variant : t.variant = s.variant
  keystream : ∀ p, keystreamByte t.variant t.w p = keystreamByte s.variant s.w p

/-- A range that fits in BUF before the run fits after it. -/
theorem StreamRun.fits {d a L x n : Nat} {ks : Nat → Byte} {s t : State}
    (h : StreamRun d a L ks s t) (hx : n = 0 ∨ x + n ≤ s.params.bufSize) :
    n = 0 ∨ x + n ≤ t.params.bufSize := by
  rwa [h.params]

/-- What an apply command leaves keeps the keystream: it changes the sequence words only. -/
theorem Applied.run {d a L n b : Nat} {ks : Nat → Byte} {s t : State}
    (h : Applied d a L n b ks s t) : StreamRun d a L ks s t := by
  have hv : t.variant = s.variant := by rw [h.frame]
  refine ⟨h.stream, by rw [h.frame], hv, ?_⟩
  rw [hv]
  exact keystreamIgnoresSequence _ _ _ h.words

/-- A no-op is a stream of no bytes. -/
theorem streamRun_complete (d a : Nat) (ks : Nat → Byte) (s : State) :
    StreamRun d a 0 ks s (s.complete .ok) :=
  ⟨(Streamed.refl_zero d a ks s).congr rfl rfl, rfl, rfl, fun _ => rfl⟩

/-- The key stream of a sequential form: from the block of the sequence on (R197). -/
def State.seqStream (s : State) (i : Nat) : Byte :=
  keystreamByte s.variant s.w (64 * seqOf s.variant s.w + i)

theorem State.seqStream_of_zero {s : State} (h : seqOf s.variant s.w = 0) :
    s.seqStream = keystreamByte s.variant s.w := by
  funext i
  rw [State.seqStream, h, Nat.mul_zero, Nat.zero_add]

/-- The key stream of a seeked form: from the offset on (R202). -/
def State.seekStream (s : State) (i : Nat) : Byte :=
  keystreamByte s.variant s.w (s.operands.offset + i)

section
variable {s : State}
  (hs : s.operands.length.toNat = 0 ∨
    s.operands.srcAddr.toNat + s.operands.length.toNat ≤ s.params.bufSize)
  (hd : s.operands.length.toNat = 0 ∨
    s.operands.dstAddr.toNat + s.operands.length.toNat ≤ s.params.bufSize)
include hs

theorem exec_applyIp_run : ∃ t, exec .applyIp s = .next t ∧
    StreamRun s.operands.srcAddr.toNat s.operands.srcAddr.toNat s.operands.seqLength
      s.seqStream s t := by
  by_cases h : s.operands.seqLength = 0
  · rw [h]
    exact ⟨_, execApplyIp_null h, streamRun_complete _ _ _ s⟩
  · obtain ⟨hL, ha⟩ := not_or.1 (mt (Operands.seqLength_eq_zero_iff _).2 h)
    rw [Operands.seqLength_of_ne ha]
    exact ⟨_, execApplyIp_runs s hL ha (hs.resolve_left hL), (applied_applySeq _ _ _ s hL).run⟩

theorem exec_applySeekIp_run : ∃ t, exec .applySeekIp s = .next t ∧
    StreamRun s.operands.srcAddr.toNat s.operands.srcAddr.toNat s.operands.length.toNat
      s.seekStream s t :=
  ⟨_, execApplySeekIp_runs s ((rangeOk_iff _ _ _).2 hs), (applied_applySeekAt _ _ _ _ s).run⟩

include hd

theorem exec_apply_run : ∃ t, exec .apply s = .next t ∧
    StreamRun s.operands.dstAddr.toNat s.operands.srcAddr.toNat s.operands.seqLength
      s.seqStream s t := by
  by_cases h : s.operands.seqLength = 0
  · rw [h]
    exact ⟨_, execApply_null h, streamRun_complete _ _ _ s⟩
  · obtain ⟨hL, ha⟩ := not_or.1 (mt (Operands.seqLength_eq_zero_iff _).2 h)
    rw [Operands.seqLength_of_ne ha]
    exact ⟨_, execApply_runs s hL ha (hs.resolve_left hL) (hd.resolve_left hL),
      (applied_applySeq _ _ _ s hL).run⟩

theorem exec_applySeek_run : ∃ t, exec .applySeek s = .next t ∧
    StreamRun s.operands.dstAddr.toNat s.operands.srcAddr.toNat s.operands.length.toNat
      s.seekStream s t :=
  ⟨_, execApplySeek_runs s ((rangeOk_iff _ _ _).2 hs) ((rangeOk_iff _ _ _).2 hd),
    (applied_applySeekAt _ _ _ _ s).run⟩

end

/-! ### Overlapping ranges (R206) -/

/-- A source byte that the command has written before is read as written (R206). -/
theorem Streamed.overlap {d a L i j : Nat} {ks : Nat → Byte} {s t : State}
    (h : Streamed d a L ks s t) (hi : i < L) (hji : j < i) (hij : a + i = d + j) :
    t.memRead (d + i) = t.memRead (d + j) ^^^ ks i := by
  rw [h.inside i hi, if_pos (by omega), hij]

/-- Settles O36: both clauses are read off the byte-serial stream. -/
theorem overlapFollowsByteOrder : Obligations.OverlapFollowsByteOrder := by
  intro s t a d L ks _ ha hs hd h
  obtain ⟨t', ht', hrun⟩ := exec_apply_run (s := s) (.inr hs) (.inr hd)
  obtain rfl : t' = t := Host.Outcome.next.inj (ht'.symm.trans h)
  rw [Operands.seqLength_of_ne ha] at hrun
  exact ⟨fun hda i hi => hrun.stream.plain hda i hi,
    fun _ i j hi hji hij => hrun.stream.overlap hi hji hij⟩

/-! ### A message split into chunks (R204) -/

/-- A stream of no bytes has no addresses. -/
theorem Streamed.of_addresses {d a d' a' L : Nat} {ks : Nat → Byte} {s t : State}
    (h : Streamed d a L ks s t) (hda : L ≠ 0 → d = d' ∧ a = a') : Streamed d' a' L ks s t := by
  by_cases hL : L = 0
  · subst hL
    exact ⟨fun i hi => absurd hi (Nat.not_lt_zero i), fun b _ => h.outside b (by omega)⟩
  · obtain ⟨rfl, rfl⟩ := hda hL
    exact h

/-- The address of a byte of BUF is a register's value (R8, R73). -/
theorem toNat_ofNat_address {p : Params} {x n : Nat} (hn : n ≠ 0) (h : x + n ≤ p.bufSize) :
    (BitVec.ofNat 32 x).toNat = x :=
  Nat.mod_eq_of_lt (by have := Params.bufSize_le p; omega)

/-- The offset registers hold a 64-bit value in two halves (R118). -/
theorem toNat_append_ofNat {n : Nat} (h : n < 2 ^ 64) :
    (BitVec.ofNat 32 (n >>> 32) ++ BitVec.ofNat 32 n).toNat = n := by
  rw [toNat_append_words, ofNat_shiftRight_toNat, BitVec.toNat_ofNat]
  omega

/-- The operands of the chunk of `n` bytes at `pos` (R204 (b)). -/
def Operands.chunk (o : Operands) (d a pos n : Nat) : Operands := { o with
  srcAddr := BitVec.ofNat 32 (a + pos)
  dstAddr := BitVec.ofNat 32 (d + pos)
  length := BitVec.ofNat 32 n
  offsetLo := BitVec.ofNat 32 pos
  offsetHi := BitVec.ofNat 32 (pos >>> 32) }

/-- The state with its sequence set to `q`, as the statements set it. -/
def State.rewind (s : State) (q : Nat) : State := { s with w := withSeq s.variant s.w q }

/-- One chunk streams its bytes with the keystream from `pos` on, whatever the sequence (R202). -/
theorem exec_seekChunk_run {d a pos n : Nat} {s : State} (hpos : pos + n < 2 ^ 32)
    (ha : a + pos + n ≤ s.params.bufSize) (hd : d + pos + n ≤ s.params.bufSize) :
    ∃ t, exec .applySeek (s.issued .applySeek (s.regs.chunk d a pos n)) = .next t ∧
      StreamRun (d + pos) (a + pos) n (fun i => keystreamByte s.variant s.w (pos + i)) s t := by
  have hlen : (BitVec.ofNat 32 n).toNat = n := Nat.mod_eq_of_lt (by omega)
  have hoff : (s.regs.chunk d a pos n).offset = pos := toNat_append_ofNat (by omega)
  have haddr (hn : n ≠ 0) : (BitVec.ofNat 32 (d + pos)).toNat = d + pos ∧
      (BitVec.ofNat 32 (a + pos)).toNat = a + pos :=
    ⟨toNat_ofNat_address hn hd, toNat_ofNat_address hn ha⟩
  have hfits {x : Nat} (hx : x + n ≤ s.params.bufSize) : (BitVec.ofNat 32 n).toNat = 0 ∨
      (BitVec.ofNat 32 x).toNat + (BitVec.ofNat 32 n).toNat ≤ s.params.bufSize := by
    rw [hlen, or_iff_not_imp_left]
    intro hn
    rwa [toNat_ofNat_address hn hx]
  obtain ⟨t, ht, hrun⟩ := exec_applySeek_run
    (s := s.issued .applySeek (s.regs.chunk d a pos n)) (hfits ha) (hfits hd)
  have hstream : Streamed (BitVec.ofNat 32 (d + pos)).toNat (BitVec.ofNat 32 (a + pos)).toNat
      (BitVec.ofNat 32 n).toNat
      (fun i => keystreamByte s.variant s.w ((s.regs.chunk d a pos n).offset + i)) s t :=
    hrun.stream.congr rfl rfl
  rw [hlen, hoff] at hstream
  exact ⟨t, ht, hstream.of_addresses haddr, hrun.params, hrun.variant, hrun.keystream⟩

/-- The chunks after the first go on from the state it leaves. -/
theorem seekChunks_cons {d a n pos : Nat} {ns : List Nat} {s t : State}
    (h : exec .applySeek (s.issued .applySeek (s.regs.chunk d a pos n)) = .next t) :
    seekChunks d a (n :: ns) pos s = seekChunks d a ns (pos + n) t := by
  rw [Operands.chunk] at h
  simp only [seekChunks, h]

/-- The chunks together are one stream (R204 (b)). -/
theorem seekChunks_streamed {d a : Nat} (ns : List Nat) {pos : Nat} {s : State}
    (hpos : pos + ns.sum < 2 ^ 32) (ha : a + pos + ns.sum ≤ s.params.bufSize)
    (hd : d + pos + ns.sum ≤ s.params.bufSize) :
    ∃ u, seekChunks d a ns pos s = .next u ∧
      Streamed (d + pos) (a + pos) ns.sum
        (fun i => keystreamByte s.variant s.w (pos + i)) s u := by
  induction ns generalizing pos s with
  | nil => exact ⟨s, rfl, Streamed.refl_zero _ _ _ s⟩
  | cons n ns ih =>
    rw [List.sum_cons] at hpos ha hd ⊢
    obtain ⟨t, ht, hrun⟩ :=
      exec_seekChunk_run (d := d) (a := a) (pos := pos) (n := n) (s := s) (by omega) (by omega)
        (by omega)
    obtain ⟨u, hu, hrest⟩ := ih (pos := pos + n) (s := t) (by omega)
      (by rw [hrun.params]; omega) (by rw [hrun.params]; omega)
    refine ⟨u, ?_, hrun.stream.append ?_⟩
    · rw [seekChunks_cons ht, hu]
    · simpa only [hrun.keystream, Nat.add_assoc] using hrest

/-- Settles O37: the one command and the chunks are both streams of the whole message with the
keystream from position 0, and a stream determines its bytes. -/
theorem splitSeekEquivalence : Obligations.SplitSeekEquivalence := by
  intro s a d chunks q o ha0 ha hd hN hN32 hseq hsrc hdst hlen
  have hsrcN : o.srcAddr.toNat = a := by rw [hsrc, toNat_ofNat_address hN.ne' ha]
  have hdstN : o.dstAddr.toNat = d := by rw [hdst, toNat_ofNat_address hN.ne' hd]
  have hlenN : o.length.toNat = chunks.sum := by rw [hlen]; exact Nat.mod_eq_of_lt hN32
  have hnull : o.srcAddr ≠ nullAddr := by
    intro h
    rw [h] at hsrcN
    exact ha0.ne hsrcN
  have hsfits : o.srcAddr.toNat + o.length.toNat ≤ s.params.bufSize := by rwa [hsrcN, hlenN]
  have hdfits : o.dstAddr.toNat + o.length.toNat ≤ s.params.bufSize := by rwa [hdstN, hlenN]
  obtain ⟨t, ht, hrun⟩ := exec_apply_run (s := s.issued .apply o) (.inr hsfits) (.inr hdfits)
  obtain ⟨u, hu, hchunks⟩ := seekChunks_streamed (d := d) (a := a) chunks (pos := 0)
    (s := s.rewind q) (by omega) ha hd
  have hwhole : Streamed d a chunks.sum (keystreamByte s.variant s.w) s t := by
    have h : Streamed o.dstAddr.toNat o.srcAddr.toNat o.seqLength s.seqStream s t :=
      hrun.stream.congr rfl rfl
    rwa [Operands.seqLength_of_ne hnull, hsrcN, hdstN, hlenN, State.seqStream_of_zero hseq] at h
  have hsplit : Streamed d a chunks.sum (keystreamByte s.variant s.w) s u := by
    have hks : (fun p => keystreamByte s.variant (withSeq s.variant s.w q) (0 + p)) =
        keystreamByte s.variant s.w :=
      funext fun p => by rw [keystreamByte_withSeq, Nat.zero_add]
    rw [← hks]
    exact hchunks.congr rfl rfl
  exact ⟨t, u, ht, hu, hwhole.unique hsplit fun _ => rfl, fun hda p hp => hsplit.plain hda p hp⟩

/-! ### The round trip (R205) -/

/-- Two streams with one key stream, from `a` to `d` and then from `d` to `e`, where neither
destination is ahead of its source in the same range, cancel (R192). -/
theorem Streamed.cancel {a d e L : Nat} {ks : Nat → Byte} {s t t' u : State}
    (h1 : Streamed d a L ks s t) (h2 : Streamed e d L ks t' u)
    (ht : ∀ b, t'.memRead b = t.memRead b)
    (hda : d = a ∨ d + L ≤ a ∨ a + L ≤ d) (hed : e = d ∨ e + L ≤ d ∨ d + L ≤ e)
    {i : Nat} (hi : i < L) : u.memRead (e + i) = s.memRead (a + i) := by
  rw [h2.plain (by omega) i hi, ht, h1.plain (by omega) i hi, BitVec.xor_assoc, BitVec.xor_self,
    BitVec.xor_zero]

/-- In place, every byte is as before. -/
theorem Streamed.cancel_inPlace {a L : Nat} {ks : Nat → Byte} {s t t' u : State}
    (h1 : Streamed a a L ks s t) (h2 : Streamed a a L ks t' u)
    (ht : ∀ b, t'.memRead b = t.memRead b) (b : Nat) : u.memRead b = s.memRead b := by
  by_cases hb : a ≤ b ∧ b < a + L
  · obtain ⟨i, rfl⟩ := Nat.exists_eq_add_of_le hb.1
    exact h1.cancel h2 ht (.inl rfl) (.inl rfl) (by omega)
  · rw [h2.outside b hb, ht, h1.outside b hb]

/-- A sequential form issued after another, with the sequence set back, has the same key stream. -/
theorem StreamRun.seqStream_rewind {d a L : Nat} {ks : Nat → Byte} {s t : State}
    (h : StreamRun d a L ks s t) (i : Instr) (o : Operands) :
    ((t.rewind (seqOf s.variant s.w)).issued i o).seqStream = s.seqStream := by
  funext k
  change keystreamByte t.variant (withSeq t.variant t.w _)
    (64 * seqOf t.variant (withSeq t.variant t.w _) + k) = _
  rw [keystreamByte_withSeq, h.keystream, h.variant, seqOf_withSeq,
    Nat.mod_eq_of_lt (seqOf_lt s.variant s.w)]
  rfl

/-- A seeked form issued after another at the same offset has the same key stream. -/
theorem StreamRun.seekStream_issued {d a L : Nat} {ks : Nat → Byte} {s t : State}
    (h : StreamRun d a L ks s t) (i : Instr) {o : Operands} (ho : o.offset = s.operands.offset) :
    (t.issued i o).seekStream = s.seekStream := by
  funext k
  change keystreamByte t.variant t.w (o.offset + k) = _
  rw [h.keystream, ho]
  rfl

/-- Settles O38: in each form the second stream has the key stream of the first, so the two
cancel. -/
theorem roundTrip : Obligations.RoundTrip := by
  intro s o a d L fits apart rewound back ha
  refine ⟨?_, ?_, fun e hd he hda hed => ⟨fun hsrc hdst => ?_, ?_⟩⟩
  · obtain ⟨t, ht, h1⟩ := exec_applyIp_run (s := s) ha
    obtain ⟨u, hu, h2⟩ := exec_applyIp_run
      (s := (t.rewind (seqOf s.variant s.w)).issued .applyIp o) (h1.fits ha)
    rw [h1.seqStream_rewind] at h2
    exact ⟨t, u, ht, hu, h1.stream.cancel_inPlace h2.stream fun _ => rfl⟩
  · obtain ⟨t, ht, h1⟩ := exec_applySeekIp_run (s := s) ha
    obtain ⟨u, hu, h2⟩ := exec_applySeekIp_run (s := t.issued .applySeekIp o)
      (h1.fits ha)
    rw [h1.seekStream_issued _ rfl] at h2
    exact ⟨t, u, ht, hu, h1.stream.cancel_inPlace h2.stream fun _ => rfl⟩
  · obtain ⟨t, ht, h1⟩ := exec_apply_run (s := s) ha hd
    obtain ⟨u, hu, h2⟩ := exec_apply_run
      (s := (t.rewind (seqOf s.variant s.w)).issued .apply (back e))
      (h1.fits hd) (h1.fits he)
    rw [h1.seqStream_rewind] at h2
    rw [Operands.seqLength_of_ne hsrc] at h1
    rw [Operands.seqLength_of_ne hdst] at h2
    exact ⟨t, u, ht, hu, fun i hi => h1.stream.cancel h2.stream (fun _ => rfl) hda hed hi⟩
  · obtain ⟨t, ht, h1⟩ := exec_applySeek_run (s := s) ha hd
    obtain ⟨u, hu, h2⟩ := exec_applySeek_run (s := t.issued .applySeek (back e))
      (h1.fits hd) (h1.fits he)
    rw [h1.seekStream_issued (o := back e) _ rfl] at h2
    exact ⟨t, u, ht, hu, fun i hi => h1.stream.cancel h2.stream (fun _ => rfl) hda hed hi⟩

end Sys2Proof.Machine
end

section
/-! PROOF. The statements of 60_exceptions.md: what completion writes, precise errors, the range
checks, writes to a busy block, irq, and the idle engine. -/

namespace Sys2Proof.Machine

open Sys2Proof

/-! ### Completion (R235) -/

/-- STATUS after a command's effects and a completion with cause 0: of the flags only WRAP may be set
before the completion (R163). -/
theorem Effect.completed_status {i : Instr} {s r : State} (h : Effect i s r) :
    (r.complete .ok).status = (s.status.orWrap r.status.wrap).completed .ok :=
  congrArg (fun q : State => q.status.completed .ok) h.frame

/-- Every command completes, with cause 0, 3 or 4 (R235, R236). -/
theorem exec_completes (i : Instr) (s : State) :
    ∃ t b c, exec i s = .next t ∧ t.engine = .idle ∧
      t.status = (s.status.orWrap b).completed c ∧ (c = .ok ∨ c = .srcRange ∨ c = .dstRange) := by
  rcases exec_shape i s with ⟨r, hr, he⟩ | ⟨c, hc, hr⟩
  · exact ⟨_, r.status.wrap, .ok, hr, rfl, he.completed_status, .inl rfl⟩
  · exact ⟨_, false, c, hr, rfl, by rw [Status.orWrap_false]; rfl, .inr hc⟩

/-- The turn of a busy engine completes, whatever its word (R235). -/
theorem TurnResult.status {cmd : Word} {s t : State} (h : TurnResult cmd s t) :
    ∃ b c, t.status = (s.status.orWrap b).completed c := by
  cases h with
  | rejected | failed => exact ⟨false, _, by rw [Status.orWrap_false]; rfl⟩
  | ran _ _ he => exact ⟨_, .ok, he.completed_status⟩

/-- ILLEGAL records codes 1 and 2 (R231). -/
theorem Cause.setsIllegal_iff (c : Cause) :
    c.setsIllegal = true ↔ c.code = 1#4 ∨ c.code = 2#4 := by
  cases c <;> decide

/-- MEMERR records codes 3 and 4 (R231). -/
theorem Cause.setsMemerr_iff (c : Cause) :
    c.setsMemerr = true ↔ c.code = 3#4 ∨ c.code = 4#4 := by
  cases c <;> decide

/-- Settles O12: `exec_completes` for the commands, `TurnResult.status` for every word's turn. -/
theorem everyCommandCompletes : Obligations.EveryCommandCompletes := by
  refine ⟨fun i s => ?_, fun s cmd ops h => ?_⟩
  · obtain ⟨t, b, c, ht, hidle, hst, hc⟩ := exec_completes i s
    refine ⟨t, ht, hidle, ?_⟩
    rw [hst]
    rcases hc with rfl | rfl | rfl <;> simp [Cause.setsIllegal, Cause.setsMemerr]
  · obtain ⟨t, ht, hr⟩ := engineTurn_busy h
    obtain ⟨b, c, hst⟩ := hr.status
    refine ⟨t, ht, hr.engine, ?_⟩
    rw [hst]
    simp [Cause.setsIllegal_iff, Cause.setsMemerr_iff]

/-! ### Precise errors (R236) -/

/-- Settles O13: a command with a cause other than 0 is a completion of the state before it. -/
theorem errorsArePrecise : Obligations.ErrorsArePrecise := by
  intro i s t h hne
  rcases exec_shape i s with ⟨r, hr, -⟩ | ⟨c, hc, hr⟩
  · obtain rfl : r.complete .ok = t := Host.Outcome.next.inj (hr.symm.trans h)
    exact absurd rfl hne
  · obtain rfl : s.complete c = t := Host.Outcome.next.inj (hr.symm.trans h)
    exact complete_rangeError s hc

/-! ### The range checks (R234, R237) -/

/-- The `n` bytes from `base` up lie in BUF; no byte always does (R79). -/
abbrev fitsBuf (p : Params) (base : Word) (n : Nat) : Prop :=
  n = 0 ∨ base.toNat + n ≤ p.bufSize

section
variable {s r t : State} {p : Params} {a d : Word} {n : Nat} {c : Cause}
  {x : Host.Outcome State Fault Refusal}

/-- A completion reports its cause (R235). -/
theorem cause_of_complete
    (h : Host.Outcome.next (φ := Fault) (ρ := Refusal) (r.complete c) = .next t) :
    t.status.cause = c := by
  obtain rfl := Host.Outcome.next.inj h
  rfl

/-- One range check: it reports `c` where the range does not fit, and else what follows it runs. -/
theorem cause_of_rangeCheck
    (h : (if !rangeOk p a n then .next (s.complete c) else x) = .next t) :
    (¬ fitsBuf p a n → t.status.cause = c) ∧ (fitsBuf p a n → x = .next t) := by
  rw [fitsBuf, ← rangeOk_iff]
  split_ifs at h with hok
  · exact ⟨fun _ => cause_of_complete h, fun hfits => by simp [hfits] at hok⟩
  · exact ⟨fun hfits => by simp [hfits] at hok, fun _ => h⟩

/-- The causes of a command that checks its source only. -/
theorem cause_of_srcCheck
    (h : (if !rangeOk p a n then .next (s.complete .srcRange) else
      Host.Outcome.next (φ := Fault) (ρ := Refusal) (r.complete .ok)) = .next t) :
    (fitsBuf p a n → t.status.cause = .ok) ∧ (¬ fitsBuf p a n → t.status.cause = .srcRange) := by
  obtain ⟨hfail, hrun⟩ := cause_of_rangeCheck h
  exact ⟨fun hs => cause_of_complete (hrun hs), hfail⟩

/-- The causes of a command that checks its source and then its destination. -/
theorem cause_of_srcThenDstCheck
    (h : (if !rangeOk p a n then .next (s.complete .srcRange) else
      if !rangeOk p d n then .next (s.complete .dstRange) else
      Host.Outcome.next (φ := Fault) (ρ := Refusal) (r.complete .ok)) = .next t) :
    (fitsBuf p a n → fitsBuf p d n → t.status.cause = .ok) ∧
    (¬ fitsBuf p a n → t.status.cause = .srcRange) ∧
    (fitsBuf p a n → ¬ fitsBuf p d n → t.status.cause = .dstRange) := by
  obtain ⟨hsrcFail, hdst⟩ := cause_of_rangeCheck h
  refine ⟨fun hs hd => ?_, hsrcFail, fun hs => (cause_of_rangeCheck (hdst hs)).1⟩
  exact cause_of_complete ((cause_of_rangeCheck (hdst hs)).2 hd)

/-- The no-op test of APPLY and APPLY_IP: it reports 0 on no byte or the null source, and else what
follows it runs (R198). -/
theorem cause_of_nullTest {o : Operands}
    (h : (if o.length.toNat = 0 ∨ o.srcAddr = nullAddr then .next (s.complete .ok) else x) =
      .next t) :
    (o.length = 0#32 ∨ o.srcAddr = 0#32 → t.status.cause = .ok) ∧
    (o.length ≠ 0#32 → o.srcAddr ≠ 0#32 → x = .next t) := by
  have hL : o.length.toNat = 0 ↔ o.length = 0#32 := BitVec.toNat_inj (y := 0#32)
  simp only [hL, nullAddr] at h
  split_ifs at h with hnull
  · exact ⟨fun _ => cause_of_complete h, fun hlen ha => (hnull.elim hlen ha).elim⟩
  · exact ⟨fun h' => absurd h' hnull, fun _ _ => h⟩

end

/-- The bytes SET_NONCE reads, as the statements write them (R155). -/
theorem nonceBytesRead_eq (v : Variant) (len : Nat) :
    nonceBytesRead v len = min len (if v = .djb then 8 else 12) := by
  cases v <;> rfl

/-- Settles O14: each command is its checks, in order, and then a completion with cause 0. -/
theorem causeOfEveryCommand : Obligations.CauseOfEveryCommand := by
  intro i s t h o fits nonceCap
  cases i with
  | nop | init | setSeq | getSeq | incSeq | genMask => exact cause_of_complete h
  | setKey | applySeekIp => exact cause_of_srcCheck h
  | setNonce =>
    have hchecked := cause_of_srcCheck h
    rw [nonceBytesRead_eq] at hchecked
    exact hchecked
  | permuteBuf | applySeek => exact cause_of_srcThenDstCheck h
  | apply =>
    obtain ⟨hnull, hrun⟩ := cause_of_nullTest h
    exact ⟨hnull, fun hL ha => cause_of_srcThenDstCheck (hrun hL ha)⟩
  | applyIp =>
    obtain ⟨hnull, hrun⟩ := cause_of_nullTest h
    exact ⟨hnull, fun hL ha => cause_of_srcCheck (hrun hL ha)⟩

/-! ### Writes to a busy block (R238) -/

/-- While busy a host write of the operand registers is dropped (R44). -/
theorem writeOperands_busy {s : State} {cmd : Word} {ops : Operands} (h : s.engine = .busy cmd ops)
    (o : Operands) : s.writeOperands o = s.dropWrite :=
  if_pos (isBusy_of_busy h)

/-- While busy a host write of CMD or an operand register is dropped (R44). -/
theorem regWrite_busy {s : State} {cmd : Word} {ops : Operands} (h : s.engine = .busy cmd ops)
    {r : Reg} (hr : r ∈ .cmd :: operandRegs) (v : Word) : s.regWrite r v = s.dropWrite := by
  simp only [operandRegs, List.mem_cons, List.not_mem_nil, or_false] at hr
  rcases hr with rfl | rfl | rfl | rfl | rfl | rfl | rfl | rfl
  · exact if_pos (isBusy_of_busy h)
  all_goals exact writeOperands_busy h _

/-- Settles O41: each of these writes is `dropWrite`. -/
theorem busyWriteSetsOverrun : Obligations.BusyWriteSetsOverrun := fun _ _ _ h =>
  ⟨fun _ v hr => regWrite_busy h hr v, fun a v st => bufWrite_busy h a v st⟩

/-! ### irq (R240) -/

/-- irq is bit 0 of CTRL and bit 1 of STATUS as the host reads them (R46). -/
theorem irq_eq_words (s : State) :
    s.irq = (s.ctrlWord.getLsbD 0 && s.statusWord.getLsbD 1) := by
  rw [getLsbD_ctrlWord, getLsbD_statusWord]
  rfl

/-- After a turn DONE is set and IE is kept, so irq is IE. -/
theorem TurnResult.irq {cmd : Word} {s t : State} (h : TurnResult cmd s t) : t.irq = s.ie := by
  obtain ⟨-, hie, -⟩ := h.keeps
  rw [State.irq, hie, h.done, Bool.and_true]

/-- Settles O49: the level by its two words, the completion by `TurnResult.irq`; a write of 1 to CTRL
sets IE and keeps DONE. -/
theorem irqFollowsEnableAndDone : Obligations.IrqFollowsEnableAndDone := by
  refine ⟨irq_eq_words, fun s t cmd ops h ht => ?_, fun s hdone => ?_⟩
  · obtain ⟨u, hu, hr⟩ := engineTurn_busy h
    obtain rfl : u = t := Host.Outcome.next.inj (hu.symm.trans ht)
    exact hr.irq
  · exact hdone

/-! ### The idle engine (R249) -/

/-- Settles O4: the turn is next, and an idle engine's turn does nothing. -/
theorem idleEngineKeepsState : Obligations.IdleEngineKeepsState := by
  refine fun s hidle => ⟨fun hi => ?_, fun rest hi => ?_⟩
  · simp only [step, hi, engineTurn_idle hidle]
  · rw [step_of_turnIsNext (.inr ⟨rest, hi⟩), hi]
    exact engineTurn_idle hidle

end Sys2Proof.Machine
end

section
/-! PROOF. The statements of 70_reset_and_hazards.md: acceptance, what the host reads while a command
runs, reset, and that a command runs to its completion whatever the host does meanwhile. -/

namespace Sys2Proof.Machine

open Sys2Proof

/-! ### The latched command and acceptance (R265) -/

/-- Settles O2: in both cases the step is the turn of a busy engine whose word decodes to `i`. -/
theorem stepRunsLatchedCommand : Obligations.StepRunsLatchedCommand := by
  refine fun s cmd ops i h hd => ⟨fun hi => ?_, fun rest hi => ?_⟩
  · simp only [step, hi]
    exact engineTurn_of_decode h hd
  · simp only [step, hi, State.takeEvent]
    exact engineTurn_of_decode (s := { s with inbox := rest }) h hd

/-- A host write of CMD while idle is acceptance (R265 phase 1). -/
theorem regWrite_cmd_idle {s : State} (h : s.engine = .idle) (c : Word) :
    s.regWrite .cmd c = s.accept c := by
  simp only [State.regWrite, isBusy_of_idle h, Bool.false_eq_true, if_false]

/-- BUSY and DONE are bits 0 and 1 of STATUS (R34). -/
theorem getLsbD_busyDoneMask {k : Nat} (h : k < 32) : (3#32).getLsbD k = decide (k < 2) := by
  revert k
  decide

/-- Just after acceptance STATUS reads BUSY = 1 and DONE = 0 (R265). -/
theorem statusWord_accept (s : State) (c : Word) :
    (s.accept c).statusWord &&& 3#32 = 1#32 := by
  refine BitVec.eq_of_getLsbD_eq fun k hk => ?_
  rw [BitVec.getLsbD_and, getLsbD_busyDoneMask hk, getLsbD_statusWord, BitVec.getLsbD_one]
  by_cases h : k < 2
  · obtain rfl | rfl : k = 0 ∨ k = 1 := by omega
    · rfl
    · rfl
  · simp [h, show k ≠ 0 by omega]

/-- Settles O48: every offset that aligns to 0x0C is CMD's, and its write is acceptance, which sets
BUSY and clears DONE. -/
theorem commandWriteIsAccepted : Obligations.CommandWriteIsAccepted := by
  intro s addr c st rest o hidle hi hg ho
  have hcmd : regAt o = .cmd := regAt_congr (o' := 0x0C) ho
  have hstep : step s = .next (({ s with inbox := rest } : State).accept c) := by
    rw [step_busWrite hi hg, State.targetWrite, hcmd]
    exact congrArg _ (regWrite_cmd_idle (s := { s with inbox := rest }) hidle c)
  exact ⟨_, hstep, Bool.and_false _, statusWord_accept _ c, rfl⟩

/-! ### Reads in both phases (R44, R267) -/

/-- While busy a hidden value reads 0 (R44). -/
theorem hiddenWhileBusy_busy {s : State} {cmd : Word} {ops : Operands}
    (h : s.engine = .busy cmd ops) (v : Word) : s.hiddenWhileBusy v = 0#32 :=
  if_pos (isBusy_of_busy h)

/-- While idle a hidden value reads as it is (R44). -/
theorem hiddenWhileBusy_idle {s : State} (h : s.engine = .idle) (v : Word) :
    s.hiddenWhileBusy v = v := by
  rw [State.hiddenWhileBusy, isBusy_of_idle h]
  rfl

/-- A busy engine's STATUS is the idle one's with BUSY set (R34, R44). -/
theorem statusWord_of_busy {s : State} {cmd : Word} {ops : Operands}
    (h : s.engine = .busy cmd ops) :
    s.statusWord = ({ s with engine := .idle } : State).statusWord ||| 1#32 := by
  refine BitVec.eq_of_getLsbD_eq fun k hk => ?_
  rw [BitVec.getLsbD_or, BitVec.getLsbD_one, getLsbD_statusWord, getLsbD_statusWord]
  by_cases hk0 : k = 0
  · simp [hk0, isBusy_of_busy h]
  · simp [hk0]

/-- Byte j of the word MASKk reads is byte `4k + j` of the mask (R32). -/
theorem byteOf_maskWord (m : Mask) (k : Nat) {j : Nat} (hj : j < 4) :
    byteOf (maskWord m k) j = maskByte m (4 * k + j) := by
  rw [maskWord, byteOf_le32 _ _ _ hj, maskByte_eq_getD]

/-- Byte lane j of an idle read of BUF is the byte at the aligned address plus j (R73). -/
theorem byteOf_bufRead {s : State} (h : s.engine = .idle) (a : Nat) {j : Nat} (hj : j < 4) :
    byteOf (s.bufRead a) j = s.memRead (laneBase a + j) := by
  rw [State.bufRead, hiddenWhileBusy_idle h, byteOf_le32 _ _ _ hj, State.getD_memReadBytes,
    Nat.zero_add, if_pos hj]

/-- Settles O42: the hidden values by `hiddenWhileBusy`, STATUS by its bits; every other register does
not look at the phase. -/
theorem resultsReadZeroWhileBusy : Obligations.ResultsReadZeroWhileBusy := by
  refine ⟨fun s cmd ops h => ?_, fun s h => ?_, fun s => ⟨rfl, rfl, rfl, rfl, rfl⟩⟩
  · have hzero := hiddenWhileBusy_busy h
    refine ⟨fun k => ⟨hzero _, hzero _⟩, hzero _, hzero _, fun a => hzero _, fun r hr => ?_,
      statusWord_of_busy h⟩
    simp only [List.mem_cons, List.not_mem_nil, or_false] at hr
    rcases hr with rfl | rfl | rfl | rfl <;> rfl
  · have hvalue := hiddenWhileBusy_idle h
    refine ⟨fun k => ⟨hvalue _, fun j hj => ?_⟩, hvalue _, hvalue _,
      fun a j hj => byteOf_bufRead h a hj⟩
    rw [regRead_mask h, byteOf_maskWord _ _ hj]

/-! ### Reset (R260, R261) -/

/-- A step whose event is a reset (R260). -/
theorem step_reset {s : State} {rest : List Event} (hi : s.inbox = .reset :: rest) :
    step s = .next (State.hardReset { s with inbox := rest }) := by
  simp only [step, hi, State.takeEvent]

/-- A reset with an empty range draws nothing and keeps BUF (R261). -/
theorem hardReset_buf_of_empty {s : State} (h : s.resetRange.2 = 0) :
    s.hardReset.buf = s.buf := by
  simp only [State.hardReset, h, Memory.drawBytes]

/-- A reset draws one byte for each of the range (R261). -/
theorem hardReset_draws (s : State) : s.hardReset.draws = s.draws + s.resetRange.2 := rfl

/-- After a reset the bytes of BUF in the range are draws, numbered from the range's start; every other
byte is kept (R261). -/
theorem memRead_hardReset (s : State) (b : Nat) :
    s.hardReset.memRead b =
      if s.resetRange.1 ≤ b ∧ b < s.resetRange.1 + s.resetRange.2 ∧ b < s.params.bufSize
        then Config.drawnByte (s.draws + (b - s.resetRange.1)) else s.memRead b := by
  simp only [State.memRead, State.hardReset, Memory.read?_drawBytes]
  split_ifs <;> rfl

/-- While busy the range is the latched command's (R261). -/
theorem resetRange_busy {s : State} {cmd : Word} {ops : Operands} (h : s.engine = .busy cmd ops) :
    s.resetRange = destRange cmd ops := by
  simp only [State.resetRange, h]

/-- Settles O50: the step is `hardReset`, whose draws and BUF follow `resetRange`: empty while idle and
for a word that is no command, else the command's own destination range. -/
theorem resetAbandonsCommand : Obligations.ResetAbandonsCommand := by
  intro s rest hi
  refine ⟨_, step_reset hi, rfl, fun hidle => ?_, fun cmd ops i h hd => ?_, fun cmd ops e h hd => ?_⟩
  · refine hardReset_buf_of_empty ?_
    simp only [State.resetRange, hidle]
  · have hrange := resetRange_busy (s := { s with inbox := rest }) h
    have hdraws := hardReset_draws { s with inbox := rest }
    have hmem := memRead_hardReset { s with inbox := rest }
    rw [hrange, destRange, hd] at hdraws hmem
    cases i <;> exact ⟨hdraws, hmem⟩
  · refine hardReset_buf_of_empty ?_
    rw [resetRange_busy (s := { s with inbox := rest }) h, destRange, hd]

/-! ### A running command and the host (R271, R273) -/

/-- A host write to a busy block changes nothing a command can read (R44, R238). -/
theorem WriteResult.sameCore {s t : State} {cmd : Word} {ops : Operands} (hw : WriteResult s t)
    (h : s.engine = .busy cmd ops) : SameCore s t := by
  cases hw with
  | ignored | ctrl | status | dropped => exact ⟨rfl, rfl, rfl, rfl, rfl, rfl, rfl⟩
  | accepted _ hidle | operands _ hidle | stored _ hidle => simp [h] at hidle

/-- A host access to a busy block changes nothing a command can read (R78, R271). -/
theorem takeEvent_sameCore {s t : State} {cmd : Word} {ops : Operands} {e : Event}
    (h : s.engine = .busy cmd ops) (hturn : e ≠ .engineTurn) (hreset : e ≠ .reset)
    (ht : s.takeEvent e = .next t) : SameCore s t := by
  cases e with
  | engineTurn => exact absurd rfl hturn
  | reset => exact absurd rfl hreset
  | busRead addr =>
    simp only [State.takeEvent, State.busRead] at ht
    split at ht
    · cases ht
    · cases ht
      exact ⟨rfl, rfl, rfl, rfl, rfl, rfl, rfl⟩
  | busWrite addr v st =>
    simp only [State.takeEvent, State.busWrite] at ht
    split at ht
    · cases ht
    next g hg =>
      cases ht
      exact (targetWrite_result s hg v st).sameCore h

/-- The turns of two busy engines that agree on what a command can read complete with one cause, in
states that agree again (R271). -/
theorem SameCore.engineTurn {s s' : State} {cmd : Word} {ops : Operands} (hs : SameCore s s')
    (h : s.engine = .busy cmd ops) :
    ∃ r r' c, s.engineTurn = .next (r.complete c) ∧ s'.engineTurn = .next (r'.complete c) ∧
      SameCore r r' := by
  have h' : s'.engine = .busy cmd ops := hs.engine.trans h
  cases hd : decode cmd with
  | error e => exact ⟨s, s', _, engineTurn_of_reject h hd, engineTurn_of_reject h' hd, hs⟩
  | ok i =>
    rw [engineTurn_of_decode h hd, engineTurn_of_decode h' hd]
    exact hs.exec i

/-- Settles O52: the access keeps what the command reads, so both turns complete with one cause and
agree on everything but CTRL, STATUS and the host's lists. -/
theorem hostCannotDisturbCommand : Obligations.HostCannotDisturbCommand := by
  intro s s' t cmd ops e h hturn hreset hs' ht
  obtain ⟨r, r', c, hr, hr', hcore⟩ := (takeEvent_sameCore h hturn hreset hs').engineTurn h
  obtain rfl : r.complete c = t := Host.Outcome.next.inj (hr.symm.trans ht)
  exact ⟨_, hr', hcore.w, hcore.variant, hcore.mask, hcore.regs, hcore.buf, rfl, rfl, rfl⟩

/-- A busy engine's step that is no reset completes the command, or takes a host access and leaves the
command latched (R265, R271). -/
theorem step_of_busy {s t : State} {cmd : Word} {ops : Operands} (h : s.engine = .busy cmd ops)
    (hreset : .reset ∉ s.inbox) (ht : step s = .next t) :
    (t.engine = .idle ∧ t.status.done = true) ∨
      (t.engine = .busy cmd ops ∧ ∃ e, s.inbox = e :: t.inbox) := by
  cases step_result ht with
  | rest _ hidle | idleTurn _ hidle => simp [h] at hidle
  | lastTurn _ _ hr | turn _ _ hr => exact .inl ⟨hr.engine, hr.done⟩
  | reset hi => simp [hi] at hreset
  | read hi => exact .inr ⟨h, _, hi⟩
  | write hi _ _ hw =>
    obtain ⟨-, -, -, -, -, hinbox, -⟩ := hw.keeps
    exact .inr ⟨(hw.sameCore h).engine.trans h, _, by rw [hi, hinbox]⟩

/-- Settles O51, by induction on the number of events left: the step completes the command, or leaves
it latched with one event less. -/
theorem acceptedCommandCompletes : Obligations.AcceptedCommandCompletes := by
  intro s cmd ops h hstray hreset
  induction hk : s.inbox.length using Nat.strong_induction_on generalizing s with
  | _ k ih =>
    obtain ⟨t, ht⟩ := step_next hstray
    rcases step_of_busy h hreset ht with ⟨hidle, hdone⟩ | ⟨hbusy, e, hi⟩
    · exact ⟨1, t, by omega, run_succ ht, hidle, hdone⟩
    · rw [hi, List.length_cons] at hk
      rw [hi, List.mem_cons, not_or] at hreset
      obtain ⟨n, u, hn, hrun, hu⟩ :=
        ih t.inbox.length (by omega) t hbusy (step_noStray ht hstray) hreset.2 rfl
      exact ⟨n + 1, u, by omega, (run_succ ht).trans hrun, hu⟩

end Sys2Proof.Machine
end
